-- ==== Sys2Proof/Word.lean ====
section
/-! DEFINITION. The two word sizes of the core: 8-bit data and 16-bit addresses (00_scope.md R10, R13). -/

namespace Sys2Proof

/-- An 8-bit value, the spec's `u8`: A, X, Y, P, SP, a memory cell, an opcode or operand byte (R10). -/
abbrev Byte := BitVec 8

/-- A 16-bit value, the spec's `u16`: PC and addresses (R10, R47). -/
abbrev Word := BitVec 16

end Sys2Proof
end

