-- ==== Sys2Proof/Syntax.lean ====
section
/-! DEFINITION. Operation tags, addressing-mode tags, instruction-table entries, and the instructions: one
constructor for each of the seventeen rows of spec/opcode_table.json (30_encoding.md R70 to R72, R78). -/

namespace Sys2Proof

/-- The operation tags of R71, a closed list. -/
inductive Operation where
  /-- load accumulator (40_load.md) -/
  | lda
  /-- add with carry (41_arithmetic.md) -/
  | adc
  /-- the dedicated halt opcode (42_control.md) -/
  | halt
  deriving DecidableEq, Repr

/-- The ten addressing-mode tags of R72, a closed list; `none` is the spec's tag None. -/
inductive Mode where
  | immediate
  | zeroPage
  | absolute
  | zeroPageX
  | zeroPageY
  | absoluteX
  | absoluteY
  | indirectX
  | indirectY
  | none
  deriving DecidableEq, Repr

/-- An instruction entry (R70): opcode byte, operation, addressing mode, operand byte length. -/
structure Entry where
  opcode : Byte
  operation : Operation
  mode : Mode
  length : Nat
  deriving DecidableEq, Repr

/-- An instruction table `INSTR_TABLE` as its rows (R75, R77). -/
abbrev InstrTable := List Entry

/-- The instructions with their operands, one constructor for each row of R78 (the row's opcode beside it).
An `op8` operand is a byte, an `op16` operand a word (formats F1 and F2 of R69). -/
inductive Instr where
  /-- 0x00 HALT, mode None -/
  | halt
  /-- 0x61 ADC ($nn,X) -/
  | adcIndirectX (op8 : Byte)
  /-- 0x65 ADC $nn -/
  | adcZeroPage (op8 : Byte)
  /-- 0x69 ADC #$nn -/
  | adcImmediate (op8 : Byte)
  /-- 0x6D ADC $hhll -/
  | adcAbsolute (op16 : Word)
  /-- 0x71 ADC ($nn),Y -/
  | adcIndirectY (op8 : Byte)
  /-- 0x75 ADC $nn,X -/
  | adcZeroPageX (op8 : Byte)
  /-- 0x79 ADC $hhll,Y -/
  | adcAbsoluteY (op16 : Word)
  /-- 0x7D ADC $hhll,X -/
  | adcAbsoluteX (op16 : Word)
  /-- 0xA1 LDA ($nn,X) -/
  | ldaIndirectX (op8 : Byte)
  /-- 0xA5 LDA $nn -/
  | ldaZeroPage (op8 : Byte)
  /-- 0xA9 LDA #$nn -/
  | ldaImmediate (op8 : Byte)
  /-- 0xAD LDA $hhll -/
  | ldaAbsolute (op16 : Word)
  /-- 0xB1 LDA ($nn),Y -/
  | ldaIndirectY (op8 : Byte)
  /-- 0xB5 LDA $nn,X -/
  | ldaZeroPageX (op8 : Byte)
  /-- 0xB9 LDA $hhll,Y -/
  | ldaAbsoluteY (op16 : Word)
  /-- 0xBD LDA $hhll,X -/
  | ldaAbsoluteX (op16 : Word)
  deriving DecidableEq, Repr

end Sys2Proof
end

