-- ==== Sys2Proof/Decode.lean ====
section
/-! DEFINITION. The instruction tables, the decoder (total on any bytes, rejecting by name) and, after it, the
encoder (30_encoding.md R68 to R80). The byte-order helpers are here too. -/

namespace Sys2Proof

/-! ## Bytes and words -/

/-- `{hi, lo}` = hi * 256 + lo: the concatenation of R13, with the high part first. -/
def wordOf (hi lo : Byte) : Word := hi ++ lo

/-- `v[7:0]` of a 16-bit value (R13, R50). -/
def lowByte (v : Word) : Byte := v.extractLsb' 0 8

/-- `v[15:8]` of a 16-bit value (R13, R50). -/
def highByte (v : Word) : Byte := v.extractLsb' 8 8

/-! ## The instruction table -/

/-- `modeLength(mode)`, the operand byte length of each mode (R73). -/
def modeLength : Mode → Nat
  | .immediate | .zeroPage | .zeroPageX | .zeroPageY | .indirectX | .indirectY => 1
  | .absolute | .absoluteX | .absoluteY => 2
  | .none => 0

/-- Profile `standard17`, the default table (R78), row by row. -/
def standard17 : InstrTable :=
  [ ⟨0x00#8, .halt, .none, 0⟩,
    ⟨0x61#8, .adc, .indirectX, 1⟩,
    ⟨0x65#8, .adc, .zeroPage, 1⟩,
    ⟨0x69#8, .adc, .immediate, 1⟩,
    ⟨0x6D#8, .adc, .absolute, 2⟩,
    ⟨0x71#8, .adc, .indirectY, 1⟩,
    ⟨0x75#8, .adc, .zeroPageX, 1⟩,
    ⟨0x79#8, .adc, .absoluteY, 2⟩,
    ⟨0x7D#8, .adc, .absoluteX, 2⟩,
    ⟨0xA1#8, .lda, .indirectX, 1⟩,
    ⟨0xA5#8, .lda, .zeroPage, 1⟩,
    ⟨0xA9#8, .lda, .immediate, 1⟩,
    ⟨0xAD#8, .lda, .absolute, 2⟩,
    ⟨0xB1#8, .lda, .indirectY, 1⟩,
    ⟨0xB5#8, .lda, .zeroPageX, 1⟩,
    ⟨0xB9#8, .lda, .absoluteY, 2⟩,
    ⟨0xBD#8, .lda, .absoluteX, 2⟩ ]

/-- Profile `shown`: the two rows the source itself shows by number (R77). -/
def shown : InstrTable :=
  [ ⟨0x00#8, .halt, .none, 0⟩,
    ⟨0xA9#8, .lda, .immediate, 1⟩ ]

/-- `Decode(op) = INSTR_TABLE(op)`, an exact match on the opcode byte (R75, R76). -/
def lookup : InstrTable → Byte → Option Entry
  | [], _ => none
  | e :: t, op => if e.opcode = op then some e else lookup t op

/-! ## The decoder -/

/-- The instruction an entry stands for, with its operand assembled from the trailing bytes: `op8 = b1`,
`op16 = {b2, b1}` (R69, R100). `none` for an entry that is no row of the instruction set: a length that is not
its mode's, or a pair of operation and mode no row has. -/
def instrOf (e : Entry) (b1 b2 : Byte) : Option Instr :=
  if e.length = modeLength e.mode then
    match e.operation, e.mode with
    | .halt, .none => some .halt
    | .lda, .immediate => some (.ldaImmediate b1)
    | .lda, .zeroPage => some (.ldaZeroPage b1)
    | .lda, .zeroPageX => some (.ldaZeroPageX b1)
    | .lda, .absolute => some (.ldaAbsolute (wordOf b2 b1))
    | .lda, .absoluteX => some (.ldaAbsoluteX (wordOf b2 b1))
    | .lda, .absoluteY => some (.ldaAbsoluteY (wordOf b2 b1))
    | .lda, .indirectX => some (.ldaIndirectX b1)
    | .lda, .indirectY => some (.ldaIndirectY b1)
    | .adc, .immediate => some (.adcImmediate b1)
    | .adc, .zeroPage => some (.adcZeroPage b1)
    | .adc, .zeroPageX => some (.adcZeroPageX b1)
    | .adc, .absolute => some (.adcAbsolute (wordOf b2 b1))
    | .adc, .absoluteX => some (.adcAbsoluteX (wordOf b2 b1))
    | .adc, .absoluteY => some (.adcAbsoluteY (wordOf b2 b1))
    | .adc, .indirectX => some (.adcIndirectX b1)
    | .adc, .indirectY => some (.adcIndirectY b1)
    | .lda, .zeroPageY | .lda, .none | .adc, .zeroPageY | .adc, .none => none
    | .halt, .immediate | .halt, .zeroPage | .halt, .absolute | .halt, .zeroPageX | .halt, .zeroPageY => none
    | .halt, .absoluteX | .halt, .absoluteY | .halt, .indirectX | .halt, .indirectY => none
  else none

/-- What the decoder answers on a list of bytes. -/
inductive Decoded where
  /-- the instruction and the bytes after it -/
  | instr (i : Instr) (rest : List Byte)
  /-- the opcode byte has no entry in the table (R79) -/
  | illegalOpcode (op : Byte)
  /-- the table's entry is no row of the instruction set (only in a table that is not a subset of `standard17`) -/
  | noRow (e : Entry)
  /-- fewer trailing bytes than the entry's length -/
  | truncated (op : Byte)
  /-- no byte at all -/
  | empty
  deriving DecidableEq, Repr

/-- Decoding under a table: the opcode byte alone selects the entry (R68, R76), the length is `1 + entry.length`
(R80). Total: every other list of bytes is rejected by name. -/
def decode (t : InstrTable) : List Byte → Decoded
  | [] => .empty
  | op :: rest =>
    match lookup t op with
    | none => .illegalOpcode op
    | some e =>
      match instrOf e (rest.headD 0#8) (rest.tail.headD 0#8) with
      | none => .noRow e
      | some i => if e.length ≤ rest.length then .instr i (rest.drop e.length) else .truncated op

/-! ## The encoder -/

/-- The opcode byte of each instruction (R78, R103 to R110, R117 to R124, R126). -/
def opcodeOf : Instr → Byte
  | .halt => 0x00#8
  | .adcIndirectX _ => 0x61#8
  | .adcZeroPage _ => 0x65#8
  | .adcImmediate _ => 0x69#8
  | .adcAbsolute _ => 0x6D#8
  | .adcIndirectY _ => 0x71#8
  | .adcZeroPageX _ => 0x75#8
  | .adcAbsoluteY _ => 0x79#8
  | .adcAbsoluteX _ => 0x7D#8
  | .ldaIndirectX _ => 0xA1#8
  | .ldaZeroPage _ => 0xA5#8
  | .ldaImmediate _ => 0xA9#8
  | .ldaAbsolute _ => 0xAD#8
  | .ldaIndirectY _ => 0xB1#8
  | .ldaZeroPageX _ => 0xB5#8
  | .ldaAbsoluteY _ => 0xB9#8
  | .ldaAbsoluteX _ => 0xBD#8

/-- The operation tag of each instruction (R78). -/
def operationOf : Instr → Operation
  | .halt => .halt
  | .adcIndirectX _ | .adcZeroPage _ | .adcImmediate _ | .adcAbsolute _ => .adc
  | .adcIndirectY _ | .adcZeroPageX _ | .adcAbsoluteY _ | .adcAbsoluteX _ => .adc
  | .ldaIndirectX _ | .ldaZeroPage _ | .ldaImmediate _ | .ldaAbsolute _ => .lda
  | .ldaIndirectY _ | .ldaZeroPageX _ | .ldaAbsoluteY _ | .ldaAbsoluteX _ => .lda

/-- The addressing-mode tag of each instruction (R78). -/
def modeOf : Instr → Mode
  | .halt => .none
  | .adcIndirectX _ | .ldaIndirectX _ => .indirectX
  | .adcZeroPage _ | .ldaZeroPage _ => .zeroPage
  | .adcImmediate _ | .ldaImmediate _ => .immediate
  | .adcAbsolute _ | .ldaAbsolute _ => .absolute
  | .adcIndirectY _ | .ldaIndirectY _ => .indirectY
  | .adcZeroPageX _ | .ldaZeroPageX _ => .zeroPageX
  | .adcAbsoluteY _ | .ldaAbsoluteY _ => .absoluteY
  | .adcAbsoluteX _ | .ldaAbsoluteX _ => .absoluteX

/-- The trailing bytes of each instruction: none (F0), the byte (F1), low byte then high byte (F2) (R69). -/
def operandBytes : Instr → List Byte
  | .halt => []
  | .adcIndirectX n | .adcZeroPage n | .adcImmediate n | .adcIndirectY n | .adcZeroPageX n => [n]
  | .ldaIndirectX n | .ldaZeroPage n | .ldaImmediate n | .ldaIndirectY n | .ldaZeroPageX n => [n]
  | .adcAbsolute w | .adcAbsoluteX w | .adcAbsoluteY w => [lowByte w, highByte w]
  | .ldaAbsolute w | .ldaAbsoluteX w | .ldaAbsoluteY w => [lowByte w, highByte w]

/-- The table row an instruction belongs to (R70, R78). -/
def entryOf (i : Instr) : Entry := ⟨opcodeOf i, operationOf i, modeOf i, modeLength (modeOf i)⟩

/-- The bytes of an instruction: the opcode byte, then its trailing bytes (R68, R69). -/
def encode (i : Instr) : List Byte := opcodeOf i :: operandBytes i

/-! ## Numbered words -/

/-- The three bytes of a word numbered as spec/opcode_table.json numbers it (bit 0 the least significant bit of
the first byte), every bit from `nbits` up being 0. -/
def tableWordBytes (nbits w : Nat) : List Byte :=
  [ BitVec.ofNat 8 (w % 2 ^ nbits),
    BitVec.ofNat 8 (w % 2 ^ nbits / 256),
    BitVec.ofNat 8 (w % 2 ^ nbits / 65536) ]

/-- The instruction the decoder reads under `standard17` from such a word, `none` where it refuses. -/
def decodeTableWord (nbits w : Nat) : Option Instr :=
  match decode standard17 (tableWordBytes nbits w) with
  | .instr i _ => some i
  | .illegalOpcode _ | .noRow _ | .truncated _ | .empty => none

end Sys2Proof
end

