-- ==== Sys2Proof/WellFormed.lean ====
section
/-! DEFINITION. Well-formedness: of an instruction table (30_encoding.md R74, four checks), of a table as a
restriction of `standard17` (R77), and of an instruction under a table. An instruction's operands carry their
widths in their types, so the one thing left to check of it is that the table admits its row. -/

namespace Sys2Proof

/-- R74 (a): each opcode byte has at most one entry. -/
def uniqueOpcodes (t : InstrTable) : Bool := decide (t.map Entry.opcode).Nodup

/-- R74 (b): every entry's operand byte length equals `modeLength` of its mode. -/
def lengthsMatchModes (t : InstrTable) : Bool := t.all fun e => decide (e.length = modeLength e.mode)

/-- R74 (c): an entry has mode None iff its operation is HALT. -/
def noneExactlyHalt (t : InstrTable) : Bool :=
  t.all fun e => decide (e.mode = .none ↔ e.operation = .halt)

/-- R74 (d): the entry for opcode 0x00, if present, is HALT with mode None and length 0. -/
def zeroIsHalt (t : InstrTable) : Bool :=
  t.all fun e => decide (e.opcode = 0x00#8 → e.operation = .halt ∧ e.mode = .none ∧ e.length = 0)

/-- A well-formed instruction table (R74). -/
def tableWellFormed (t : InstrTable) : Bool :=
  uniqueOpcodes t && lengthsMatchModes t && noneExactlyHalt t && zeroIsHalt t

/-- A table whose rows are a subset of `standard17` (R77). -/
def rowsOfStandard17 (t : InstrTable) : Bool := t.all fun e => decide (e ∈ standard17)

/-- An instruction is well-formed under a table when the table holds its row (R77: "every row it lacks is an
illegal opcode"). -/
def instrWellFormed (t : InstrTable) (i : Instr) : Bool := decide (lookup t (opcodeOf i) = some (entryOf i))

end Sys2Proof
end

