-- ==== Sys2Proof/Config.lean ====
section
/-! DEFINITION. The named parameters of the core (00_scope.md R11; 10_state.md R43: parameters, not state) and
the spec's default for each. The spec leaves no instruction result open, so no free value stands here. -/

namespace Sys2Proof

/-- The four named parameters of R11. -/
structure Config where
  /-- `PROGRAM_LOAD_ADDR`: where `load` copies the image (D2) -/
  programLoadAddr : Word
  /-- `RESET_VECTOR_ADDR`: the first of the two bytes of the reset vector (D3) -/
  resetVectorAddr : Word
  /-- `STACK_BASE`: what SP is an offset from (D4); no rule reads it -/
  stackBase : Word
  /-- `INSTR_TABLE`: the instruction table (D1) -/
  instrTable : InstrTable
  deriving DecidableEq, Repr

/-- The spec's defaults (R11): 0x8000, 0xFFFC, 0x0100 and profile `standard17`. DESIGN CHOICE of the spec
(D1 to D4), log entry 4. -/
def Config.default : Config :=
  { programLoadAddr := 0x8000#16, resetVectorAddr := 0xFFFC#16, stackBase := 0x0100#16, instrTable := standard17 }

/-- A configuration is accepted when its table passes the checks of R74. -/
def Config.wellFormed (c : Config) : Bool := tableWellFormed c.instrTable

end Sys2Proof
end

