-- ==== Sys2Proof/Machine/State.lean ====
section
/-! DEFINITION. The machine state as plain data, the fault records and the refusals, the state after
construction and the state after reset (10_state.md; 70_reset_and_hazards.md R147, R151). -/

namespace Sys2Proof.Machine

/-- `run_state`, the execution engine state (R37). -/
inductive RunState where
  /-- no run in progress: after construction, load or reset -/
  | idle
  /-- a run is in progress; the next step fetches -/
  | fetching
  /-- inside an instruction; never observed between steps -/
  | executing
  /-- HALT has ended the run -/
  | halted
  /-- a fatal error has ended the run -/
  | faulted
  deriving DecidableEq, Repr

/-- The fault records of R38 and R131 to R133. A step or `run` that raises one answers a NEXT state that holds
the record (R137); later steps and host operations of the faulted instance answer the record as a fault (R138).
All are safe: the spec names each of them. -/
inductive Fault where
  /-- Raised by the fetch of a byte with no table entry: the byte and the address it was fetched from (R131).
  Safe. -/
  | illegalOpcode (opcode : Byte) (addr : Word)
  /-- Raised by an LDA or ADC entry whose mode is None (R132), which a well-formed table never has. Safe. -/
  | unsupportedAddressingMode (opcode : Byte) (addr : Word) (mode : Mode)
  /-- Raised by `run()` while PC is undefined (R133), and by a step that fetches there (log entry 3). Safe. -/
  | pcUndefined
  deriving DecidableEq, Repr

/-- Why the model gives no next state, other than a fault. -/
inductive Refusal where
  /-- An instruction with no meaning yet, by its mnemonic. No arm of exec answers it. Safe. -/
  | notModelled (mnemonic : String)
  /-- Raised by step outside Fetching: "A step is taken only while `run_state = Fetching`" (R93; log entry 2).
  Safe. -/
  | notFetching (st : RunState)
  /-- Raised by a host operation in a run state where R146 does not allow it. Safe. -/
  | hostCallNotAllowed (st : RunState)
  /-- Raised by `load` of an image that does not fit the program region (R148). Safe. -/
  | imageTooLong (length : Nat)
  /-- Raised by construct when the instruction table is ill-formed (R74). Safe. -/
  | tableIllFormed
  /-- Raised by `run` when its step budget is used up: "not ended", never Halted (R156, D23). Safe. -/
  | budgetExhausted
  deriving DecidableEq, Repr

/-- Memory as (address, byte) cells: addresses strictly rising, none equal to what an unlisted address reads as.
An unlisted address reads 0x00, the spec's construction value (R39, R147). -/
abbrev Memory := List Host.Cell

/-- The whole state of one instance: six registers (R20), memory (R46), `run_state` (R37) and `fault` (R38).
`pc` is an Option because the spec gives PC the values {undefined} ∪ u16 (R33). -/
structure State where
  /-- accumulator A (R21) -/
  a : Byte
  /-- index register X (R22) -/
  x : Byte
  /-- index register Y (R23) -/
  y : Byte
  /-- status register P (R24, R25) -/
  p : Byte
  /-- stack pointer SP (R31) -/
  sp : Byte
  /-- program counter PC; `none` is the spec's undefined (R32, R33) -/
  pc : Option Word
  /-- the one flat memory (R46) -/
  mem : Memory
  /-- the execution engine state (R37) -/
  runState : RunState
  /-- the fault record, if any (R38) -/
  fault : Option Fault
  deriving DecidableEq, Repr

/-- The state after construction (R39, R147). -/
def State.powerOn : State :=
  { a := 0x00#8, x := 0x00#8, y := 0x00#8, p := 0x24#8, sp := 0xFD#8, pc := none, mem := [], runState := .idle, fault := none }

/-- The state after construction and `reset()` with nothing loaded: PC comes from a reset vector of two zero
bytes (R39, R151, vector H4). -/
def State.reset : State :=
  { a := 0x00#8, x := 0x00#8, y := 0x00#8, p := 0x24#8, sp := 0xFD#8, pc := some 0x0000#16, mem := [], runState := .idle,
    fault := none }

end Sys2Proof.Machine
end

