-- ==== Sys2Proof/Machine/Ops.lean ====
section
/-! DEFINITION. The named operations over memory and the state that every meaning shares: memory reads and writes
(20_memory.md), PC and run_state movement (30_encoding.md R94, R95), and taking an error (60_exceptions.md R137). -/

namespace Sys2Proof.Machine

/-! ## Memory -/

/-- What a byte nothing has written reads as: 0x00, the construction value (R39, R62, R147). -/
def unwrittenByte : Byte := 0x00#8

/-- The byte under an address key, looking at the listed cells in order. -/
def cellAt : Memory → Nat → Byte
  | [], _ => unwrittenByte
  | (k, v) :: m, n => if k = n then v else cellAt m n

/-- Put a byte under an address key, in the canonical form: in its place in the rising order, and no cell at all
for a byte equal to `unwrittenByte`. -/
def putCell : Memory → Nat → Byte → Memory
  | [], n, b => if b = unwrittenByte then [] else [(n, b)]
  | (k, v) :: m, n, b =>
    if n < k then (if b = unwrittenByte then (k, v) :: m else (n, b) :: (k, v) :: m)
    else if n = k then (if b = unwrittenByte then m else (n, b) :: m)
    else (k, v) :: putCell m n b

/-- The canonical form: addresses inside the 16-bit space and strictly rising, no cell holding `unwrittenByte`. -/
def Memory.wf : Memory → Bool
  | [] => true
  | (k, v) :: m =>
    decide (k < 65536) && decide (v ≠ unwrittenByte) && m.all (fun c => decide (k < c.1)) && Memory.wf m

/-- `MemRead(addr, 1)` (R48): no state changes. -/
def memRead (m : Memory) (addr : Word) : Byte := cellAt m addr.toNat

/-- `MemWrite(addr, 1, v)` (R51). -/
def memWrite (m : Memory) (addr : Word) (v : Byte) : Memory := putCell m addr.toNat v

/-- `MemRead(addr, 2)` (R49): little-endian, the high byte at `addr +_16 1`. -/
def memRead16 (m : Memory) (addr : Word) : Word := wordOf (memRead m (addr + 1#16)) (memRead m addr)

/-- `MemWrite(addr, 2, v)` (R50). -/
def memWrite16 (m : Memory) (addr v : Word) : Memory :=
  memWrite (memWrite m addr (lowByte v)) (addr + 1#16) (highByte v)

/-- Put bytes at consecutive addresses modulo 2^16 (R68). -/
def placeBytes : Memory → Word → List Byte → Memory
  | m, _, [] => m
  | m, addr, b :: bs => placeBytes (memWrite m addr b) (addr + 1#16) bs

/-- `zext_16(v)` (R13). -/
def zext16 (v : Byte) : Word := v.setWidth 16

/-- `ZpRead16(p)` (R52): the high byte at `(p + 1) mod 256`, staying in page zero. -/
def zpRead16 (m : Memory) (p : Byte) : Word := wordOf (memRead m (zext16 (p + 1#8))) (memRead m (zext16 p))

/-- The stack location SP denotes, `STACK_BASE + zext_16(SP)` (R31). No operation reads it. -/
def stackLocation (c : Config) (s : State) : Word := c.stackBase + zext16 s.sp

/-! ## Program counter and run state -/

/-- The end of the fetch phase at opcode address `addr`: `PC <- a +_16 1`, `run_state <- Executing` (R94). -/
def beginExecute (addr : Word) (s : State) : State := { s with pc := some (addr + 1#16), runState := .executing }

/-- The end of the execute phase: `PC <- PC +_16 length`, `run_state <- Fetching` (R95). An undefined PC stays
undefined. -/
def advance (length : Nat) (s : State) : State :=
  { s with pc := s.pc.map (fun q => q + BitVec.ofNat 16 length), runState := .fetching }

/-! ## Taking an error -/

/-- Taking an error (R99, R137): the state is the one from before the step, with `run_state <- Faulted` and
`fault` set. There is no return from it (R138). -/
def raise (f : Fault) (before : State) : State := { before with runState := .faulted, fault := some f }

/-- The cause code of a fault record (R134). -/
def Fault.code : Fault → Nat
  | .illegalOpcode _ _ => 1
  | .unsupportedAddressingMode _ _ _ => 2
  | .pcUndefined => 3

end Sys2Proof.Machine
end

