-- ==== Sys2Proof/Machine/Flags.lean ====
section
/-! DEFINITION. The status flags by name, the flag updater, and every flag computation of the core
(10_state.md R25, R35, R36; 41_arithmetic.md R111 to R116). -/

namespace Sys2Proof.Machine

/-! ## Named bits of P (R25) -/

/-- Write bit `i` of `p` and no other. -/
def setBit (p : Byte) (i : Nat) (b : Bool) : Byte :=
  if b then p ||| BitVec.twoPow 8 i else p &&& ~~~ BitVec.twoPow 8 i

/-- `P.C`, bit 0 (R26). -/
def getC (p : Byte) : Bool := p.getLsbD 0
/-- `P.Z`, bit 1 (R27). -/
def getZ (p : Byte) : Bool := p.getLsbD 1
/-- `P.I`, bit 2, storage only (R30). -/
def getI (p : Byte) : Bool := p.getLsbD 2
/-- `P.D`, bit 3, storage only (R30). -/
def getD (p : Byte) : Bool := p.getLsbD 3
/-- `P.B`, bit 4, storage only (R30). -/
def getB (p : Byte) : Bool := p.getLsbD 4
/-- `P.U`, bit 5, storage only (R30). -/
def getU (p : Byte) : Bool := p.getLsbD 5
/-- `P.V`, bit 6 (R28). -/
def getV (p : Byte) : Bool := p.getLsbD 6
/-- `P.N`, bit 7 (R29). -/
def getN (p : Byte) : Bool := p.getLsbD 7

/-- `set_C` (R36). -/
def setC (p : Byte) (b : Bool) : Byte := setBit p 0 b
/-- `set_Z` (R36). -/
def setZ (p : Byte) (b : Bool) : Byte := setBit p 1 b
/-- `set_V` (R36). -/
def setV (p : Byte) (b : Bool) : Byte := setBit p 6 b
/-- `set_N` (R36). -/
def setN (p : Byte) (b : Bool) : Byte := setBit p 7 b

/-! ## Flag computations -/

/-- The flag updater: Z is set iff `r` is zero, N is bit 7 of `r`, every other bit passes through (R35). -/
def updateZeroNegative (p r : Byte) : Byte := setN (setZ p (decide (r = 0#8))) (r.getLsbD 7)

/-- The exact sum A + M + C, a natural number in 0 to 511 (R111). -/
def adcSum (a m : Byte) (c : Bool) : Nat := a.toNat + m.toNat + c.toNat

/-- The accumulator's new value, `trunc_8(sum)` (R111). -/
def adcResult (a m : Byte) (c : Bool) : Byte := BitVec.ofNat 8 (adcSum a m c)

/-- Carry out: the exact sum exceeds 0xFF (R112). -/
def adcCarry (a m : Byte) (c : Bool) : Bool := decide (0xFF < adcSum a m c)

/-- Overflow: A and M, both as they were before the addition, share bit 7 and the result's differs (R113, R115). -/
def adcOverflow (a m : Byte) (c : Bool) : Bool :=
  decide (a.getLsbD 7 = m.getLsbD 7 ∧ (adcResult a m c).getLsbD 7 ≠ a.getLsbD 7)

/-- The status register after ADC: C and V by name, then the flag updater on the result (R111). The carry-in is
the C flag of the P given (R114); `P.D` is not read (R116). -/
def adcStatus (p a m : Byte) : Byte :=
  updateZeroNegative (setV (setC p (adcCarry a m (getC p))) (adcOverflow a m (getC p))) (adcResult a m (getC p))

end Sys2Proof.Machine
end

