-- ==== Sys2Proof/Machine/Operands.lean ====
section
/-! DEFINITION. The addressing-mode resolver: the effective address of every mode (30_encoding.md R81 to R92). -/

namespace Sys2Proof.Machine

/-- ZeroPage: the operand byte, zero-extended (R83). -/
def eaZeroPage (n : Byte) : Word := zext16 n

/-- ZeroPageX and ZeroPageY: 8-bit wraparound addition, staying in page zero (R85, R86). -/
def eaZeroPageIndexed (n index : Byte) : Word := zext16 (n + index)

/-- Absolute: the two operand bytes, little-endian, as the address (R84). -/
def eaAbsolute (w : Word) : Word := w

/-- AbsoluteX and AbsoluteY: 16-bit wraparound addition (R87, R88). -/
def eaAbsoluteIndexed (w : Word) (index : Byte) : Word := w + zext16 index

/-- IndirectX: the pointer is the operand byte plus X in 8 bits, read with page-zero wrap (R89). -/
def eaIndirectX (m : Memory) (n x : Byte) : Word := zpRead16 m (n + x)

/-- IndirectY: the base is read at the operand byte with page-zero wrap, then Y is added in 16 bits (R90). -/
def eaIndirectY (m : Memory) (n y : Byte) : Word := zpRead16 m n + zext16 y

/-- `Resolve(mode)` with PC at the first trailing byte (R81): it reads PC, X, Y and memory and writes nothing.
`none` for mode None, whose resolution is a contract violation (R91). -/
def resolve (mode : Mode) (pc : Word) (s : State) : Option Word :=
  match mode with
  | .immediate => some pc
  | .zeroPage => some (eaZeroPage (memRead s.mem pc))
  | .absolute => some (eaAbsolute (memRead16 s.mem pc))
  | .zeroPageX => some (eaZeroPageIndexed (memRead s.mem pc) s.x)
  | .zeroPageY => some (eaZeroPageIndexed (memRead s.mem pc) s.y)
  | .absoluteX => some (eaAbsoluteIndexed (memRead16 s.mem pc) s.x)
  | .absoluteY => some (eaAbsoluteIndexed (memRead16 s.mem pc) s.y)
  | .indirectX => some (eaIndirectX s.mem (memRead s.mem pc) s.x)
  | .indirectY => some (eaIndirectY s.mem (memRead s.mem pc) s.y)
  | .none => none

end Sys2Proof.Machine
end

