-- ==== Sys2Proof/Machine/Arithmetic.lean ====
section
/-! DEFINITION. ADC in its eight modes (41_arithmetic.md R111 to R124), following the contract of the source's
section 4.4 (00_scope.md R9, C1). Each meaning is the execute phase (R95). -/

namespace Sys2Proof.Machine

/-- ADC on the operand byte `m` (R111): the result and every flag use the A and C of before (R114, R115). -/
def addWithCarry (m : Byte) (s : State) : State :=
  { s with a := adcResult s.a m (getC s.p), p := adcStatus s.p s.a m }

/-- ADC #$nn (R117): the operand is the instruction's own byte 1 (R82, R100). -/
def execAdcImmediate (op8 : Byte) (s : State) : Host.Outcome State Fault Refusal :=
  .next (advance (modeLength .immediate) (addWithCarry op8 s))

/-- ADC $nn (R118). -/
def execAdcZeroPage (op8 : Byte) (s : State) : Host.Outcome State Fault Refusal :=
  .next (advance (modeLength .zeroPage) (addWithCarry (memRead s.mem (eaZeroPage op8)) s))

/-- ADC $nn,X (R119). -/
def execAdcZeroPageX (op8 : Byte) (s : State) : Host.Outcome State Fault Refusal :=
  .next (advance (modeLength .zeroPageX) (addWithCarry (memRead s.mem (eaZeroPageIndexed op8 s.x)) s))

/-- ADC $hhll (R120). -/
def execAdcAbsolute (op16 : Word) (s : State) : Host.Outcome State Fault Refusal :=
  .next (advance (modeLength .absolute) (addWithCarry (memRead s.mem (eaAbsolute op16)) s))

/-- ADC $hhll,X (R121). -/
def execAdcAbsoluteX (op16 : Word) (s : State) : Host.Outcome State Fault Refusal :=
  .next (advance (modeLength .absoluteX) (addWithCarry (memRead s.mem (eaAbsoluteIndexed op16 s.x)) s))

/-- ADC $hhll,Y (R122). -/
def execAdcAbsoluteY (op16 : Word) (s : State) : Host.Outcome State Fault Refusal :=
  .next (advance (modeLength .absoluteY) (addWithCarry (memRead s.mem (eaAbsoluteIndexed op16 s.y)) s))

/-- ADC ($nn,X) (R123). -/
def execAdcIndirectX (op8 : Byte) (s : State) : Host.Outcome State Fault Refusal :=
  .next (advance (modeLength .indirectX) (addWithCarry (memRead s.mem (eaIndirectX s.mem op8 s.x)) s))

/-- ADC ($nn),Y (R124). -/
def execAdcIndirectY (op8 : Byte) (s : State) : Host.Outcome State Fault Refusal :=
  .next (advance (modeLength .indirectY) (addWithCarry (memRead s.mem (eaIndirectY s.mem op8 s.y)) s))

end Sys2Proof.Machine
end

