-- ==== Sys2Proof/Machine/Control.lean ====
section
/-! DEFINITION. HALT, the one control instruction (42_control.md R126; 30_encoding.md R96). -/

namespace Sys2Proof.Machine

/-- The halt operation: `run_state <- Halted`, no further PC advance, nothing else (R96, R126). -/
def haltRun (s : State) : State := { s with runState := .halted }

/-- HALT (R126): it takes no interrupt, pushes nothing and reads no vector. -/
def execHalt (s : State) : Host.Outcome State Fault Refusal := .next (haltRun s)

end Sys2Proof.Machine
end

