-- ==== Sys2Proof/Machine/Load.lean ====
section
/-! DEFINITION. LDA in its eight modes (40_load.md R102 to R110). Each meaning is the execute phase (R95): the fetch
phase has left PC at the first trailing byte, and PC then advances by the mode's operand length. -/

namespace Sys2Proof.Machine

/-- LDA on the byte `v` read at the effective address: A becomes `v`, Z and N follow `v` (R102). -/
def loadAccumulator (v : Byte) (s : State) : State := { s with a := v, p := updateZeroNegative s.p v }

/-- LDA #$nn (R103): the operand is the instruction's own byte 1 (R82, R100). -/
def execLdaImmediate (op8 : Byte) (s : State) : Host.Outcome State Fault Refusal :=
  .next (advance (modeLength .immediate) (loadAccumulator op8 s))

/-- LDA $nn (R104). -/
def execLdaZeroPage (op8 : Byte) (s : State) : Host.Outcome State Fault Refusal :=
  .next (advance (modeLength .zeroPage) (loadAccumulator (memRead s.mem (eaZeroPage op8)) s))

/-- LDA $nn,X (R105). -/
def execLdaZeroPageX (op8 : Byte) (s : State) : Host.Outcome State Fault Refusal :=
  .next (advance (modeLength .zeroPageX) (loadAccumulator (memRead s.mem (eaZeroPageIndexed op8 s.x)) s))

/-- LDA $hhll (R106). -/
def execLdaAbsolute (op16 : Word) (s : State) : Host.Outcome State Fault Refusal :=
  .next (advance (modeLength .absolute) (loadAccumulator (memRead s.mem (eaAbsolute op16)) s))

/-- LDA $hhll,X (R107). -/
def execLdaAbsoluteX (op16 : Word) (s : State) : Host.Outcome State Fault Refusal :=
  .next (advance (modeLength .absoluteX) (loadAccumulator (memRead s.mem (eaAbsoluteIndexed op16 s.x)) s))

/-- LDA $hhll,Y (R108). -/
def execLdaAbsoluteY (op16 : Word) (s : State) : Host.Outcome State Fault Refusal :=
  .next (advance (modeLength .absoluteY) (loadAccumulator (memRead s.mem (eaAbsoluteIndexed op16 s.y)) s))

/-- LDA ($nn,X) (R109). -/
def execLdaIndirectX (op8 : Byte) (s : State) : Host.Outcome State Fault Refusal :=
  .next (advance (modeLength .indirectX) (loadAccumulator (memRead s.mem (eaIndirectX s.mem op8 s.x)) s))

/-- LDA ($nn),Y (R110). -/
def execLdaIndirectY (op8 : Byte) (s : State) : Host.Outcome State Fault Refusal :=
  .next (advance (modeLength .indirectY) (loadAccumulator (memRead s.mem (eaIndirectY s.mem op8 s.y)) s))

end Sys2Proof.Machine
end

