-- ==== Sys2Proof/Machine/Cycle.lean ====
section
/-! DEFINITION. The execution cycle over any instruction table: the fetch phase with its decode (30_encoding.md
R94), and the execute phase written from a table entry alone, operation by operation and mode by mode (R95 to R99).
Machine/Step.lean runs an entry that is a row of the instruction set through exec; an entry that is no row (only in
a table outside `standard17`) runs through `performEntry`. `literalCycle` runs every entry through `performEntry`. -/

namespace Sys2Proof.Machine

/-! ## The execute phase from an entry -/

/-- The execute phase of entry `e` fetched at `addr` (R95, R96, R98), given the state before the step: the
operation's rule with its mode resolved at PC = `addr +_16 1`; then PC advances by the entry's length. Resolving
None raises and discards the step (R91, R99, R132). -/
def performEntry (e : Entry) (addr : Word) (before : State) : State :=
  match e.operation with
  | .halt => haltRun (beginExecute addr before)
  | .lda =>
    match resolve e.mode (addr + 1#16) before with
    | some ea => advance e.length (loadAccumulator (memRead before.mem ea) (beginExecute addr before))
    | none => raise (.unsupportedAddressingMode e.opcode addr e.mode) before
  | .adc =>
    match resolve e.mode (addr + 1#16) before with
    | some ea => advance e.length (addWithCarry (memRead before.mem ea) (beginExecute addr before))
    | none => raise (.unsupportedAddressingMode e.opcode addr e.mode) before

/-! ## The fetch phase -/

/-- What the fetch phase finds. -/
inductive Fetched where
  /-- an error, raised before any write (R94, R133) -/
  | error (f : Fault)
  /-- an instruction of the set, and the opcode address -/
  | instr (i : Instr) (addr : Word)
  /-- an entry that is no row of the instruction set, and the opcode address -/
  | entry (e : Entry) (addr : Word)
  deriving DecidableEq, Repr

/-- The fetch phase (R94): the opcode byte at PC is looked up before PC moves (C2); the operand bytes follow at
consecutive addresses modulo 2^16 (R68, R69). An undefined PC raises PcUndefined (R133; log entry 3). -/
def fetch (t : InstrTable) (s : State) : Fetched :=
  match s.pc with
  | none => .error .pcUndefined
  | some addr =>
    match lookup t (memRead s.mem addr) with
    | none => .error (.illegalOpcode (memRead s.mem addr) addr)
    | some e =>
      match instrOf e (memRead s.mem (addr + 1#16)) (memRead s.mem (addr + 2#16)) with
      | some i => .instr i addr
      | none => .entry e addr

/-- What a step answers outside Fetching: no step is taken there (R93); a faulted instance answers its fault
record (R137, R138). Log entry 2. -/
def noStep (s : State) : Host.Outcome State Fault Refusal :=
  match s.runState, s.fault with
  | .faulted, some f => .fault f
  | st, _ => .refused (.notFetching st)

/-! ## The cycle as the spec writes it -/

/-- One step as R93 to R99 write it, every entry through its operation and mode. It is the spec's own wording of
the machine, independent of Instr and exec. -/
def literalCycle (t : InstrTable) (s : State) : Host.Outcome State Fault Refusal :=
  if s.runState = .fetching then
    match s.pc with
    | none => .next (raise .pcUndefined s)
    | some addr =>
      match lookup t (memRead s.mem addr) with
      | none => .next (raise (.illegalOpcode (memRead s.mem addr) addr) s)
      | some e => .next (performEntry e addr s)
  else noStep s

end Sys2Proof.Machine
end

