-- ==== Sys2Proof/Machine/Dispatch.lean ====
section
/-! DEFINITION. One arm per instruction (30_encoding.md R98: no default arm). -/

namespace Sys2Proof.Machine

/-- The execute phase of an instruction (R95, R96): PC stands at the first trailing byte. -/
def exec (i : Instr) (s : State) : Host.Outcome State Fault Refusal :=
  match i with
  | .halt => Sys2Proof.Machine.execHalt s
  | .adcIndirectX op8 => Sys2Proof.Machine.execAdcIndirectX op8 s
  | .adcZeroPage op8 => Sys2Proof.Machine.execAdcZeroPage op8 s
  | .adcImmediate op8 => Sys2Proof.Machine.execAdcImmediate op8 s
  | .adcAbsolute op16 => Sys2Proof.Machine.execAdcAbsolute op16 s
  | .adcIndirectY op8 => Sys2Proof.Machine.execAdcIndirectY op8 s
  | .adcZeroPageX op8 => Sys2Proof.Machine.execAdcZeroPageX op8 s
  | .adcAbsoluteY op16 => Sys2Proof.Machine.execAdcAbsoluteY op16 s
  | .adcAbsoluteX op16 => Sys2Proof.Machine.execAdcAbsoluteX op16 s
  | .ldaIndirectX op8 => Sys2Proof.Machine.execLdaIndirectX op8 s
  | .ldaZeroPage op8 => Sys2Proof.Machine.execLdaZeroPage op8 s
  | .ldaImmediate op8 => Sys2Proof.Machine.execLdaImmediate op8 s
  | .ldaAbsolute op16 => Sys2Proof.Machine.execLdaAbsolute op16 s
  | .ldaIndirectY op8 => Sys2Proof.Machine.execLdaIndirectY op8 s
  | .ldaZeroPageX op8 => Sys2Proof.Machine.execLdaZeroPageX op8 s
  | .ldaAbsoluteY op16 => Sys2Proof.Machine.execLdaAbsoluteY op16 s
  | .ldaAbsoluteX op16 => Sys2Proof.Machine.execLdaAbsoluteX op16 s

end Sys2Proof.Machine
end

