-- ==== Sys2Proof/Machine/Step.lean ====
section
/-! DEFINITION. One architectural step (30_encoding.md R93): fetch, then the instruction's meaning. -/

namespace Sys2Proof.Machine

/-- One step under an instruction table. A row of the instruction set runs through exec. -/
def stepWith (t : InstrTable) (s : State) : Host.Outcome State Fault Refusal :=
  if s.runState = .fetching then
    match fetch t s with
    | .error f => .next (raise f s)
    | .instr i addr => exec i (beginExecute addr s)
    | .entry e addr => .next (performEntry e addr s)
  else noStep s

/-- One step of the default configuration (R11, R77). -/
def step (s : State) : Host.Outcome State Fault Refusal := stepWith Config.default.instrTable s

/-- `s` with the instruction of the table word `w` placed where the next step fetches, and a run in progress as
`run()` would leave it (R152): the word's three bytes at PC, `run_state` Fetching. Where PC is undefined it takes
the value `reset()` would give it (R151). It stands for the host's load, reset and run (log entry 1). -/
def State.withFetchWord (s : State) (nbits w : Nat) : State :=
  let addr := s.pc.getD (memRead16 s.mem Config.default.resetVectorAddr)
  { s with pc := some addr, mem := placeBytes s.mem addr (tableWordBytes nbits w), runState := .fetching }

end Sys2Proof.Machine
end

