-- ==== Sys2Proof/Machine/HostOps.lean ====
section
/-! DEFINITION. The host interface for any configuration: construct, load, reset, run, load_and_run and the
read-only accessors (70_reset_and_hazards.md R146 to R156; 10_state.md R42). -/

namespace Sys2Proof.Machine

/-- Do the next operation on the state an operation answered; a fault or a refusal ends the sequence (R154). -/
def andThen (r : Host.Outcome State Fault Refusal) (k : State → Host.Outcome State Fault Refusal) :
    Host.Outcome State Fault Refusal :=
  match r with
  | .next s => k s
  | .fault f => .fault f
  | .refused w => .refused w

/-- The run states in which a host operation other than an accessor is allowed: Idle and Halted (R146). On a
faulted instance it has no effect and answers the existing fault (R138). -/
def whenStopped (s : State) (k : Host.Outcome State Fault Refusal) : Host.Outcome State Fault Refusal :=
  match s.runState, s.fault with
  | .idle, _ => k
  | .halted, _ => k
  | .faulted, some f => .fault f
  | st, _ => .refused (.hostCallNotAllowed st)

/-- construct (R147); an ill-formed table is refused when it is given (R74). -/
def construct (c : Config) : Host.Outcome State Fault Refusal :=
  if c.wellFormed then .next State.powerOn else .refused .tableIllFormed

/-- The image fits in the program region without passing the top of memory (R148). -/
def imageFits (c : Config) (image : List Byte) : Bool :=
  decide (image.length ≤ 0x10000 - c.programLoadAddr.toNat)

/-- The memory `load` leaves: the image copied in order, then the reset vector written (R149). -/
def loadedMemory (c : Config) (m : Memory) (image : List Byte) : Memory :=
  memWrite16 (placeBytes m c.programLoadAddr image) c.resetVectorAddr c.programLoadAddr

/-- The state `load` leaves: only memory changes, the image bytes and the vector. "no register or `run_state` changes"
(R149); R37 and R145 read otherwise for a Halted instance (log entry 7). -/
def loadedState (c : Config) (image : List Byte) (s : State) : State := { s with mem := loadedMemory c s.mem image }

/-- `load(bytes)` (R148 to R150). -/
def load (c : Config) (image : List Byte) (s : State) : Host.Outcome State Fault Refusal :=
  whenStopped s <|
    if imageFits c image then .next (loadedState c image s)
    else .refused (.imageTooLong image.length)

/-- The state `reset()` leaves (R151): power-on registers, PC from the reset vector, Idle; memory unchanged. -/
def resetState (c : Config) (s : State) : State :=
  { s with a := 0x00#8, x := 0x00#8, y := 0x00#8, p := 0x24#8, sp := 0xFD#8,
           pc := some (memRead16 s.mem c.resetVectorAddr), runState := .idle }

/-- `reset()` (R151). -/
def resetOp (c : Config) (s : State) : Host.Outcome State Fault Refusal := whenStopped s (.next (resetState c s))

/-- The beginning of `run()` (R152): PcUndefined while PC is undefined (R133), else `run_state <- Fetching`. -/
def startRun (s : State) : Host.Outcome State Fault Refusal :=
  whenStopped s <|
    match s.pc with
    | none => .next (raise .pcUndefined s)
    | some _ => .next { s with runState := .fetching }

/-- The loop of `run()` (R152) under a budget of steps: it ends when `run_state` is no longer Fetching; a budget
used up while still Fetching is "not ended" (R156). -/
def runLoop (t : InstrTable) : Nat → State → Host.Outcome State Fault Refusal
  | 0, s => if s.runState = .fetching then .refused .budgetExhausted else .next s
  | n + 1, s => if s.runState = .fetching then andThen (stepWith t s) (runLoop t n) else .next s

/-- `run()` (R152, R153) under a budget of steps. The state it answers is Halted, or Faulted with its record. -/
def run (c : Config) (budget : Nat) (s : State) : Host.Outcome State Fault Refusal :=
  andThen (startRun s) (runLoop c.instrTable budget)

/-- `load_and_run(bytes)`: load, then reset, then run (R154). -/
def loadAndRun (c : Config) (image : List Byte) (budget : Nat) (s : State) : Host.Outcome State Fault Refusal :=
  andThen (load c image s) fun loaded => andThen (resetOp c loaded) fun ready => run c budget ready

/-- What the read-only accessors answer (R42): the registers and each named flag; PC may be undefined. -/
structure HostView where
  a : Byte
  x : Byte
  y : Byte
  p : Byte
  sp : Byte
  pc : Option Word
  flagC : Bool
  flagZ : Bool
  flagI : Bool
  flagD : Bool
  flagB : Bool
  flagU : Bool
  flagV : Bool
  flagN : Bool
  deriving DecidableEq, Repr

/-- The read-only accessors (R42), allowed in every run state, Faulted included (R138, R146). -/
def hostView (s : State) : HostView :=
  { a := s.a, x := s.x, y := s.y, p := s.p, sp := s.sp, pc := s.pc,
    flagC := getC s.p, flagZ := getZ s.p, flagI := getI s.p, flagD := getD s.p,
    flagB := getB s.p, flagU := getU s.p, flagV := getV s.p, flagN := getN s.p }

end Sys2Proof.Machine
end

