-- ==== Sys2Proof/Safety.lean ====
section
/-! DEFINITION. What the claims mean by an invariant of the machine, by a state the host can bring about, and by a
safe state. -/

namespace Sys2Proof.Machine

/-- The invariant of the machine between steps: memory in its canonical form; a fault record exactly when Faulted
(R37, R38); never Executing (R37); PC defined whenever a run is in progress or has halted (R33, R152). -/
abbrev State.Inv (s : State) : Prop :=
  s.mem.wf = true ∧ (s.runState = .faulted ↔ s.fault ≠ none) ∧ s.runState ≠ .executing ∧
    (s.runState = .fetching ∨ s.runState = .halted → s.pc ≠ none)

/-- The storage-only state is as reset leaves it: X, Y, SP and status bits 2 to 5 (R30, R41). -/
abbrev State.IdleStorage (s : State) : Prop :=
  s.x = 0x00 ∧ s.y = 0x00 ∧ s.sp = 0xFD ∧ getI s.p = true ∧ getD s.p = false ∧ getB s.p = false ∧ getU s.p = true

/-- A safe state: no fatal error has ended the run (R130, R137). -/
abbrev State.Safe (s : State) : Prop := s.runState ≠ .faulted

/-- The states the host interface can bring about under a configuration (R146), those inside a run included. -/
inductive HostReachable (c : Config) : State → Prop where
  | constructed {s : State} : construct c = .next s → HostReachable c s
  | loaded {s t : State} {image : List Byte} : HostReachable c s → load c image s = .next t → HostReachable c t
  | resetDone {s t : State} : HostReachable c s → resetOp c s = .next t → HostReachable c t
  | runStarted {s t : State} : HostReachable c s → startRun s = .next t → HostReachable c t
  | stepped {s t : State} : HostReachable c s → stepWith c.instrTable s = .next t → HostReachable c t

end Sys2Proof.Machine
end

