-- ==== Sys2Proof/Certificates/Slice0/Obligations.lean ====
section
/-! DEFINITION. The statements for the provers. The claims about results are written in plain arithmetic on numbers
and single bits, independently of the model's own operand and flag functions. -/

namespace Sys2Proof.Claims

open Sys2Proof.Machine

/-! ## The vocabulary of the statements -/

/-- The byte at an address given as a number, modulo 2^16 (R47). -/
def byteAt (s : State) (n : Nat) : Byte := memRead s.mem (BitVec.ofNat 16 n)

/-- Bytes standing at consecutive addresses modulo 2^16 (R68). -/
def BytesAt (s : State) (addr : Word) (bs : List Byte) : Prop :=
  ∀ k, ∀ h : k < bs.length, byteAt s (addr.toNat + k) = bs[k]

/-- The number held at zero-page pointer `p`, low byte first, the pointer wrapping in page zero (R52). -/
def zeroPagePointer (s : State) (p : Nat) : Nat :=
  (byteAt s (p % 256)).toNat + 256 * (byteAt s ((p + 1) % 256)).toNat

/-- The address an F2 instruction names: low byte first (R69). -/
def named (lo hi : Byte) : Nat := lo.toNat + 256 * hi.toNat

/-- The same address as the operand of an instruction. -/
def op16 (lo hi : Byte) : Word := BitVec.ofNat 16 (named lo hi)

/-- The state an instruction's meaning starts from: PC at the first trailing byte, Executing (R94). -/
def begun (s : State) (addr : Word) : State :=
  { s with pc := some (BitVec.ofNat 16 (addr.toNat + 1)), runState := .executing }

/-- The state an error leaves (R137): the state before, Faulted, with the record. -/
def failed (s : State) (f : Fault) : State := { s with runState := .faulted, fault := some f }

/-- What no instruction touches: X, Y, SP, the fault record, P bits 2 to 5 and every byte of memory (R40). -/
def Untouched (s t : State) : Prop :=
  t.x = s.x ∧ t.y = s.y ∧ t.sp = s.sp ∧ t.fault = s.fault ∧
    (∀ k, 2 ≤ k → k ≤ 5 → t.p.getLsbD k = s.p.getLsbD k) ∧
    ∀ addr, memRead t.mem addr = memRead s.mem addr

/-- PC moved on by `n` modulo 2^16, and the run goes on (R95). -/
def MovedOn (n : Nat) (s t : State) : Prop :=
  t.pc = s.pc.map (fun q => BitVec.ofNat 16 (q.toNat + n)) ∧ t.runState = .fetching

/-- The whole effect of LDA on the byte `v` with `n` operand bytes, frame included (R102). -/
def LoadEffect (v : Byte) (n : Nat) (s t : State) : Prop :=
  t.a = v ∧ (getZ t.p = true ↔ v.toNat = 0) ∧ (getN t.p = true ↔ 128 ≤ v.toNat) ∧
    getC t.p = getC s.p ∧ getV t.p = getV s.p ∧ MovedOn n s t ∧ Untouched s t

/-- The exact sum of ADC on the byte `m`: A + M + C with the carry flag of the state (R111, R114). -/
def exactSum (m : Byte) (s : State) : Nat := s.a.toNat + m.toNat + (getC s.p).toNat

/-- The whole effect of ADC on the byte `m` with `n` operand bytes, frame included (R111). -/
def AddEffect (m : Byte) (n : Nat) (s t : State) : Prop :=
  t.a.toNat = exactSum m s % 256 ∧
    (getC t.p = true ↔ 255 < exactSum m s) ∧
    (getV t.p = true ↔ (128 ≤ s.a.toNat ↔ 128 ≤ m.toNat) ∧ ¬ (128 ≤ t.a.toNat ↔ 128 ≤ s.a.toNat)) ∧
    (getZ t.p = true ↔ t.a.toNat = 0) ∧ (getN t.p = true ↔ 128 ≤ t.a.toNat) ∧
    MovedOn n s t ∧ Untouched s t

/-- The instruction `i` is written as `bytes`, those bytes decode to it, and a step that finds them at PC runs it. -/
def Encoded (i : Instr) (bytes : List Byte) : Prop :=
  encode i = bytes ∧ decode standard17 bytes = .instr i [] ∧
    ∀ (s : State) (addr : Word), s.runState = .fetching → s.pc = some addr → BytesAt s addr bytes →
      step s = exec i (begun s addr)

/-- The ranges of R79, one by one. -/
abbrev InListedRanges (n : Nat) : Prop :=
  (0x01 ≤ n ∧ n ≤ 0x60) ∨ (0x62 ≤ n ∧ n ≤ 0x64) ∨ (0x66 ≤ n ∧ n ≤ 0x68) ∨ (0x6A ≤ n ∧ n ≤ 0x6C) ∨
  (0x6E ≤ n ∧ n ≤ 0x70) ∨ (0x72 ≤ n ∧ n ≤ 0x74) ∨ (0x76 ≤ n ∧ n ≤ 0x78) ∨ (0x7A ≤ n ∧ n ≤ 0x7C) ∨
  (0x7E ≤ n ∧ n ≤ 0xA0) ∨ (0xA2 ≤ n ∧ n ≤ 0xA4) ∨ (0xA6 ≤ n ∧ n ≤ 0xA8) ∨ (0xAA ≤ n ∧ n ≤ 0xAC) ∨
  (0xAE ≤ n ∧ n ≤ 0xB0) ∨ (0xB2 ≤ n ∧ n ≤ 0xB4) ∨ (0xB6 ≤ n ∧ n ≤ 0xB8) ∨ (0xBA ≤ n ∧ n ≤ 0xBC) ∨
  (0xBE ≤ n ∧ n ≤ 0xFF)

/-- The bytes R79 lists as illegal under `standard17`. -/
abbrev ListedIllegal (op : Byte) : Prop := InListedRanges op.toNat

/-- `k` steps, all answering a next state, lead from one state to another. -/
inductive StepsTo (table : InstrTable) : Nat → State → State → Prop where
  | here (s : State) : StepsTo table 0 s s
  | step {k : Nat} {s t u : State} : stepWith table s = .next t → StepsTo table k t u → StepsTo table (k + 1) s u

/-- `s` with other values in SP and in the storage-only bits 2 to 5 of P. -/
def withReserved (s : State) (bits sp : Byte) : State :=
  { s with p := (s.p &&& 0xC3) ||| (bits &&& 0x3C), sp := sp }

/-- Change the next state of an outcome, if it has one. -/
def mapNext (g : State → State) : Host.Outcome State Fault Refusal → Host.Outcome State Fault Refusal
  | .next s => .next (g s)
  | .fault f => .fault f
  | .refused w => .refused w

/-- The run states in which the host may call an operation (R146). -/
def Stopped (s : State) : Prop := s.runState = .idle ∨ s.runState = .halted

end Sys2Proof.Claims

open Sys2Proof Sys2Proof.Machine Sys2Proof.Claims

/-! ## LDA, one statement an opcode (40_load.md) -/

/-- R103. -/
def Obligations.LdaImmediateLoadsItsByte : Prop :=
  ∀ n : Byte, Encoded (.ldaImmediate n) [0xA9, n] ∧
    ∀ s, ∃ t, exec (.ldaImmediate n) s = .next t ∧ LoadEffect n 1 s t

/-- R104. -/
def Obligations.LdaZeroPageLoads : Prop :=
  ∀ n : Byte, Encoded (.ldaZeroPage n) [0xA5, n] ∧
    ∀ s, ∃ t, exec (.ldaZeroPage n) s = .next t ∧ LoadEffect (byteAt s n.toNat) 1 s t

/-- R105. -/
def Obligations.LdaZeroPageXLoads : Prop :=
  ∀ n : Byte, Encoded (.ldaZeroPageX n) [0xB5, n] ∧
    ∀ s, ∃ t, exec (.ldaZeroPageX n) s = .next t ∧ LoadEffect (byteAt s ((n.toNat + s.x.toNat) % 256)) 1 s t

/-- R106. -/
def Obligations.LdaAbsoluteLoads : Prop :=
  ∀ lo hi : Byte, Encoded (.ldaAbsolute (op16 lo hi)) [0xAD, lo, hi] ∧
    ∀ s, ∃ t, exec (.ldaAbsolute (op16 lo hi)) s = .next t ∧ LoadEffect (byteAt s (named lo hi)) 2 s t

/-- R107: `byteAt` reduces the sum modulo 2^16. -/
def Obligations.LdaAbsoluteXLoads : Prop :=
  ∀ lo hi : Byte, Encoded (.ldaAbsoluteX (op16 lo hi)) [0xBD, lo, hi] ∧
    ∀ s, ∃ t, exec (.ldaAbsoluteX (op16 lo hi)) s = .next t ∧
      LoadEffect (byteAt s (named lo hi + s.x.toNat)) 2 s t

/-- R108. -/
def Obligations.LdaAbsoluteYLoads : Prop :=
  ∀ lo hi : Byte, Encoded (.ldaAbsoluteY (op16 lo hi)) [0xB9, lo, hi] ∧
    ∀ s, ∃ t, exec (.ldaAbsoluteY (op16 lo hi)) s = .next t ∧
      LoadEffect (byteAt s (named lo hi + s.y.toNat)) 2 s t

/-- R109. -/
def Obligations.LdaIndirectXLoads : Prop :=
  ∀ n : Byte, Encoded (.ldaIndirectX n) [0xA1, n] ∧
    ∀ s, ∃ t, exec (.ldaIndirectX n) s = .next t ∧
      LoadEffect (byteAt s (zeroPagePointer s (n.toNat + s.x.toNat))) 1 s t

/-- R110. -/
def Obligations.LdaIndirectYLoads : Prop :=
  ∀ n : Byte, Encoded (.ldaIndirectY n) [0xB1, n] ∧
    ∀ s, ∃ t, exec (.ldaIndirectY n) s = .next t ∧
      LoadEffect (byteAt s (zeroPagePointer s n.toNat + s.y.toNat)) 1 s t

/-! ## ADC, one statement an opcode (41_arithmetic.md) -/

/-- R117. -/
def Obligations.AdcImmediateAdds : Prop :=
  ∀ n : Byte, Encoded (.adcImmediate n) [0x69, n] ∧
    ∀ s, ∃ t, exec (.adcImmediate n) s = .next t ∧ AddEffect n 1 s t

/-- R118. -/
def Obligations.AdcZeroPageAdds : Prop :=
  ∀ n : Byte, Encoded (.adcZeroPage n) [0x65, n] ∧
    ∀ s, ∃ t, exec (.adcZeroPage n) s = .next t ∧ AddEffect (byteAt s n.toNat) 1 s t

/-- R119. -/
def Obligations.AdcZeroPageXAdds : Prop :=
  ∀ n : Byte, Encoded (.adcZeroPageX n) [0x75, n] ∧
    ∀ s, ∃ t, exec (.adcZeroPageX n) s = .next t ∧ AddEffect (byteAt s ((n.toNat + s.x.toNat) % 256)) 1 s t

/-- R120. -/
def Obligations.AdcAbsoluteAdds : Prop :=
  ∀ lo hi : Byte, Encoded (.adcAbsolute (op16 lo hi)) [0x6D, lo, hi] ∧
    ∀ s, ∃ t, exec (.adcAbsolute (op16 lo hi)) s = .next t ∧ AddEffect (byteAt s (named lo hi)) 2 s t

/-- R121. -/
def Obligations.AdcAbsoluteXAdds : Prop :=
  ∀ lo hi : Byte, Encoded (.adcAbsoluteX (op16 lo hi)) [0x7D, lo, hi] ∧
    ∀ s, ∃ t, exec (.adcAbsoluteX (op16 lo hi)) s = .next t ∧
      AddEffect (byteAt s (named lo hi + s.x.toNat)) 2 s t

/-- R122. -/
def Obligations.AdcAbsoluteYAdds : Prop :=
  ∀ lo hi : Byte, Encoded (.adcAbsoluteY (op16 lo hi)) [0x79, lo, hi] ∧
    ∀ s, ∃ t, exec (.adcAbsoluteY (op16 lo hi)) s = .next t ∧
      AddEffect (byteAt s (named lo hi + s.y.toNat)) 2 s t

/-- R123. -/
def Obligations.AdcIndirectXAdds : Prop :=
  ∀ n : Byte, Encoded (.adcIndirectX n) [0x61, n] ∧
    ∀ s, ∃ t, exec (.adcIndirectX n) s = .next t ∧
      AddEffect (byteAt s (zeroPagePointer s (n.toNat + s.x.toNat))) 1 s t

/-- R124. -/
def Obligations.AdcIndirectYAdds : Prop :=
  ∀ n : Byte, Encoded (.adcIndirectY n) [0x71, n] ∧
    ∀ s, ∃ t, exec (.adcIndirectY n) s = .next t ∧
      AddEffect (byteAt s (zeroPagePointer s n.toNat + s.y.toNat)) 1 s t

/-! ## HALT (42_control.md) -/

/-- R126: nothing changes but `run_state` (PC keeps the fetch increment), and a step on the byte 0x00 at `addr`
leaves PC at `addr` + 1, 0x0000 after 0xFFFF. -/
def Obligations.HaltEndsTheRun : Prop :=
  Encoded .halt [0x00] ∧
    (∀ s, ∃ t, exec .halt s = .next t ∧ t.runState = .halted ∧ t.pc = s.pc ∧ t.a = s.a ∧ t.p = s.p ∧
      Untouched s t) ∧
    ∀ (s : State) (addr : Word), s.runState = .fetching → s.pc = some addr → memRead s.mem addr = 0x00 →
      ∃ t, step s = .next t ∧ t.runState = .halted ∧ t.pc = some (BitVec.ofNat 16 (addr.toNat + 1)) ∧
        t.a = s.a ∧ t.p = s.p ∧ Untouched s t

/-! ## The family rules, for any table's entry -/

/-- R102 for every entry a table may hold, ZeroPageY and None included: resolve, load, advance by the entry's
length; None raises and leaves the state before the step. -/
def Obligations.LdaEntryOfAnyMode : Prop :=
  ∀ (table : InstrTable) (s : State) (addr : Word) (e : Entry),
    s.runState = .fetching → s.pc = some addr → lookup table (memRead s.mem addr) = some e → e.operation = .lda →
      (∀ ea, resolve e.mode (addr + 1#16) s = some ea →
        ∃ t, stepWith table s = .next t ∧ LoadEffect (memRead s.mem ea) e.length (begun s addr) t) ∧
      (resolve e.mode (addr + 1#16) s = none →
        stepWith table s = .next (failed s (.unsupportedAddressingMode e.opcode addr e.mode)))

/-- R111 for every entry a table may hold. -/
def Obligations.AdcEntryOfAnyMode : Prop :=
  ∀ (table : InstrTable) (s : State) (addr : Word) (e : Entry),
    s.runState = .fetching → s.pc = some addr → lookup table (memRead s.mem addr) = some e → e.operation = .adc →
      (∀ ea, resolve e.mode (addr + 1#16) s = some ea →
        ∃ t, stepWith table s = .next t ∧ AddEffect (memRead s.mem ea) e.length (begun s addr) t) ∧
      (resolve e.mode (addr + 1#16) s = none →
        stepWith table s = .next (failed s (.unsupportedAddressingMode e.opcode addr e.mode)))

/-! ## Operands and flags -/

/-- R82 to R90: the effective address of every mode but None, in arithmetic on numbers. -/
def Obligations.ResolverArithmetic : Prop :=
  ∀ (s : State) (pc : Word),
    let b1 := (byteAt s pc.toNat).toNat
    let w := b1 + 256 * (byteAt s (pc.toNat + 1)).toNat
    resolve .immediate pc s = some pc ∧
    resolve .zeroPage pc s = some (BitVec.ofNat 16 b1) ∧
    resolve .absolute pc s = some (BitVec.ofNat 16 w) ∧
    resolve .zeroPageX pc s = some (BitVec.ofNat 16 ((b1 + s.x.toNat) % 256)) ∧
    resolve .zeroPageY pc s = some (BitVec.ofNat 16 ((b1 + s.y.toNat) % 256)) ∧
    resolve .absoluteX pc s = some (BitVec.ofNat 16 (w + s.x.toNat)) ∧
    resolve .absoluteY pc s = some (BitVec.ofNat 16 (w + s.y.toNat)) ∧
    resolve .indirectX pc s = some (BitVec.ofNat 16 (zeroPagePointer s (b1 + s.x.toNat))) ∧
    resolve .indirectY pc s = some (BitVec.ofNat 16 (zeroPagePointer s b1 + s.y.toNat))

/-- R35 and R36: each named read is one bit of P's value, each named write changes one bit, and the updater changes
bits 1 and 7 (as masks). -/
def Obligations.FlagAccessTouchesItsBitOnly : Prop :=
  ∀ (p r : Byte) (b : Bool),
    (getC p = true ↔ p.toNat % 2 = 1) ∧ (getZ p = true ↔ p.toNat / 2 % 2 = 1) ∧
    (getV p = true ↔ p.toNat / 64 % 2 = 1) ∧ (getN p = true ↔ p.toNat / 128 % 2 = 1) ∧
    setC p b = (p &&& 0xFE) ||| (if b then 0x01 else 0x00) ∧
    setZ p b = (p &&& 0xFD) ||| (if b then 0x02 else 0x00) ∧
    setV p b = (p &&& 0xBF) ||| (if b then 0x40 else 0x00) ∧
    setN p b = (p &&& 0x7F) ||| (if b then 0x80 else 0x00) ∧
    updateZeroNegative p r = (p &&& 0x7D) ||| (r &&& 0x80) ||| (if r = 0x00 then 0x02 else 0x00)

/-- R112 and R113 with their equivalent forms: carry is bit 8 of the 9-bit sum, overflow is bit 7 of
(a ^ r) & (m ^ r); both on the values before the addition. -/
def Obligations.AdcCarryAndOverflowForms : Prop :=
  ∀ (m : Byte) (s : State),
    let t := addWithCarry m s
    (getC t.p = true ↔ 0xFF < exactSum m s) ∧
    getC t.p = (BitVec.ofNat 9 (exactSum m s)).getLsbD 8 ∧
    (getV t.p = true ↔ s.a.getLsbD 7 = m.getLsbD 7 ∧ t.a.getLsbD 7 ≠ s.a.getLsbD 7) ∧
    getV t.p = ((s.a ^^^ t.a) &&& (m ^^^ t.a)).getLsbD 7

/-- R125 (b) and (c): the unsigned reading is exact with the carry, and overflow says exactly that the signed sum
leaves -128 to 127. -/
def Obligations.AdcUnsignedAndSignedReadings : Prop :=
  ∀ (m : Byte) (s : State),
    let t := addWithCarry m s
    let signed : Int := s.a.toInt + m.toInt + ((getC s.p).toNat : Int)
    t.a.toNat + 256 * (getC t.p).toNat = exactSum m s ∧
    (getV t.p = true ↔ signed < -128 ∨ 127 < signed) ∧
    (getV t.p = false → t.a.toInt = signed)

/-! ## Memory -/

/-- R49 and R52: both 16-bit reads are little-endian; the first wraps at 0xFFFF, the second in page zero, and they
differ only at pointer 0xFF. -/
def Obligations.SixteenBitReads : Prop :=
  ∀ (m : Memory) (addr : Word) (p : Byte),
    (memRead16 m addr).toNat =
      (memRead m addr).toNat + 256 * (memRead m (BitVec.ofNat 16 ((addr.toNat + 1) % 65536))).toNat ∧
    (zpRead16 m p).toNat =
      (memRead m (BitVec.ofNat 16 p.toNat)).toNat +
        256 * (memRead m (BitVec.ofNat 16 ((p.toNat + 1) % 256))).toNat ∧
    (p ≠ 0xFF → zpRead16 m p = memRead16 m (BitVec.ofNat 16 p.toNat))

/-- R50 and R51 on memory in its canonical form: what a write puts where, and that every other byte stays. -/
def Obligations.WritesPutTheirBytesOnly : Prop :=
  ∀ m : Memory, m.wf = true → ∀ (addr : Word) (v : Byte) (w : Word),
    (memWrite m addr v).wf = true ∧
    memRead (memWrite m addr v) addr = v ∧
    (∀ k, k ≠ addr → memRead (memWrite m addr v) k = memRead m k) ∧
    (memWrite16 m addr w).wf = true ∧
    (memRead (memWrite16 m addr w) addr).toNat = w.toNat % 256 ∧
    (memRead (memWrite16 m addr w) (BitVec.ofNat 16 (addr.toNat + 1))).toNat = w.toNat / 256 ∧
    ∀ k, k ≠ addr → k ≠ BitVec.ofNat 16 (addr.toNat + 1) → memRead (memWrite16 m addr w) k = memRead m k

/-! ## Encoding and decoding -/

/-- Some words written out from R78's encodings, numbered as the opcode table numbers them. -/
def Obligations.SampleWordsDecode : Prop :=
  decodeTableWord 8 0x00 = some .halt ∧
  decodeTableWord 16 0x05A9 = some (.ldaImmediate 0x05) ∧
  decodeTableWord 24 0x1234AD = some (.ldaAbsolute 0x1234) ∧
  decodeTableWord 16 0x5069 = some (.adcImmediate 0x50) ∧
  decodeTableWord 24 0x12FF7D = some (.adcAbsoluteX 0x12FF) ∧
  decodeTableWord 16 0x10B6 = none

/-- Under every table that admits it, an instruction's bytes decode to it and to nothing more (R68, R69, R80);
`standard17` admits every instruction (R78). -/
def Obligations.DecodeOfEncode : Prop :=
  (∀ i : Instr, instrWellFormed standard17 i = true) ∧
  ∀ (table : InstrTable) (i : Instr) (rest : List Byte), instrWellFormed table i = true →
    decode table (encode i ++ rest) = .instr i rest

/-- The other direction: under a table of `standard17` rows, what decodes to an instruction is its encoding, and the
table admits it. -/
def Obligations.EncodeOfDecode : Prop :=
  ∀ (table : InstrTable) (bytes : List Byte) (i : Instr) (rest : List Byte),
    rowsOfStandard17 table = true → decode table bytes = .instr i rest →
      encode i ++ rest = bytes ∧ instrWellFormed table i = true

/-- R79: under `standard17` the decoder refuses exactly the 239 listed bytes, and a step that fetches one raises
IllegalOpcode and changes nothing else. -/
def Obligations.IllegalBytesAreTheListedOnes : Prop :=
  (∀ (op : Byte) (rest : List Byte), decode standard17 (op :: rest) = .illegalOpcode op ↔ ListedIllegal op) ∧
  ∀ (s : State) (addr : Word), s.runState = .fetching → s.pc = some addr → ListedIllegal (memRead s.mem addr) →
    step s = .next (failed s (.illegalOpcode (memRead s.mem addr) addr))

/-! ## The step -/

/-- When the bytes at PC decode to an instruction, the step is that instruction's meaning, begun with PC at the
first trailing byte (R93, R94). -/
def Obligations.StepRunsDecodedInstruction : Prop :=
  ∀ (s : State) (addr : Word) (i : Instr) (rest : List Byte),
    s.runState = .fetching → s.pc = some addr →
    decode standard17 [byteAt s addr.toNat, byteAt s (addr.toNat + 1), byteAt s (addr.toNat + 2)] = .instr i rest →
      step s = exec i (begun s addr)

/-- An instruction's bytes written to memory at PC are the ones the next step runs: fetch reads the same memory
(R65). -/
def Obligations.FetchSeesWrittenBytes : Prop :=
  ∀ (i : Instr) (s : State) (addr : Word), s.mem.wf = true → s.runState = .fetching → s.pc = some addr →
    step { s with mem := placeBytes s.mem addr (encode i) } =
      exec i (begun { s with mem := placeBytes s.mem addr (encode i) } addr)

/-- The step, which decodes and dispatches, is the literal cycle, for every table and state. In Fetching with PC
defined that cycle is R93 to R99 as written; what it answers outside Fetching and at an undefined PC is the model's
(log entries 2 and 3), the same in both. -/
def Obligations.StepIsTheLiteralCycle : Prop :=
  ∀ (table : InstrTable) (s : State), stepWith table s = literalCycle table s

/-- A restriction of the default table runs the rows it holds as the default does; every row it lacks is an illegal
opcode; `shown` holds exactly 0x00 and 0xA9 (R77). -/
def Obligations.RestrictedTables : Prop :=
  (∀ op : Byte, lookup shown op ≠ none ↔ op = 0x00 ∨ op = 0xA9) ∧
  ∀ (table : InstrTable) (s : State) (addr : Word),
    tableWellFormed table = true → rowsOfStandard17 table = true → s.runState = .fetching → s.pc = some addr →
      (lookup table (memRead s.mem addr) = none →
        stepWith table s = .next (failed s (.illegalOpcode (memRead s.mem addr) addr))) ∧
      (lookup table (memRead s.mem addr) ≠ none → stepWith table s = step s)

/-- R131 for every table: a byte with no entry raises IllegalOpcode with the byte and the address it was fetched
from, cause code 1. -/
def Obligations.IllegalOpcodeRecordsByteAndAddress : Prop :=
  ∀ (table : InstrTable) (s : State) (addr : Word), s.runState = .fetching → s.pc = some addr →
    lookup table (memRead s.mem addr) = none →
      stepWith table s = .next (failed s (.illegalOpcode (memRead s.mem addr) addr)) ∧
      (Fault.illegalOpcode (memRead s.mem addr) addr).code = 1

/-- R132: an LDA or ADC entry in mode None raises UnsupportedAddressingMode, code 2; under every table, ill-formed ones
included, a step that raises it fetched such an entry, and its record is that entry's opcode byte, address and mode;
with a well-formed table no step raises it. -/
def Obligations.UnsupportedModeOnlyFromNoneEntries : Prop :=
  (∀ (table : InstrTable) (s : State) (addr : Word) (e : Entry), s.runState = .fetching → s.pc = some addr →
    lookup table (memRead s.mem addr) = some e → e.operation ≠ .halt → e.mode = .none →
      stepWith table s = .next (failed s (.unsupportedAddressingMode (memRead s.mem addr) addr .none)) ∧
      (Fault.unsupportedAddressingMode (memRead s.mem addr) addr .none).code = 2) ∧
  (∀ (table : InstrTable) (s t : State) (op : Byte) (addr : Word) (mode : Mode), s.fault = none →
    stepWith table s = .next t → t.fault = some (.unsupportedAddressingMode op addr mode) →
      s.pc = some addr ∧ op = memRead s.mem addr ∧ mode = .none ∧
      ∃ e, lookup table (memRead s.mem addr) = some e ∧ e.operation ≠ .halt ∧ e.mode = .none) ∧
  ∀ (table : InstrTable) (s t : State), tableWellFormed table = true → s.fault = none →
    stepWith table s = .next t → ∀ op addr mode, t.fault ≠ some (.unsupportedAddressingMode op addr mode)

/-- R99: a step that raises an error leaves every register and all of memory as before the step. -/
def Obligations.ErrorsDiscardTheStep : Prop :=
  ∀ (table : InstrTable) (s t : State), stepWith table s = .next t → t.runState = .faulted →
    ∃ f, t = failed s f ∧ ∀ budget, runLoop table budget t = .next t

/-- R40 and R57: no step, of any table, writes X, Y, SP, P bits 2 to 5 or memory. -/
def Obligations.NoStepWritesMemoryOrIndexes : Prop :=
  ∀ (table : InstrTable) (s t : State), stepWith table s = .next t →
    t.mem = s.mem ∧ t.x = s.x ∧ t.y = s.y ∧ t.sp = s.sp ∧
      ∀ k, 2 ≤ k → k ≤ 5 → t.p.getLsbD k = s.p.getLsbD k

/-- R95 to R97 and R127: a step goes on only past the instruction at PC, by its own length; it ends the run only by
HALT at PC, or by an error; no effective address ever reaches PC. -/
def Obligations.ControlMovesForwardOnly : Prop :=
  ∀ (s t : State) (addr : Word), s.pc = some addr → step s = .next t →
    (t.runState = .fetching ∧ ∃ i rest, i ≠ .halt ∧
      decode standard17 [byteAt s addr.toNat, byteAt s (addr.toNat + 1), byteAt s (addr.toNat + 2)] = .instr i rest ∧
      t.pc = some (BitVec.ofNat 16 (addr.toNat + (encode i).length))) ∨
    (t.runState = .halted ∧ memRead s.mem addr = 0x00 ∧ t.pc = some (BitVec.ofNat 16 (addr.toNat + 1))) ∨
    (t.runState = .faulted ∧ t.pc = some addr)

/-- Outside Fetching no step is taken (R93). The answer is the model's choice (log entry 2): a refusal that names the
run state, or the fault of a faulted instance. -/
def Obligations.NoStepOutsideFetching : Prop :=
  ∀ s : State, s.runState ≠ .fetching →
    (s.runState ≠ .faulted → step s = .refused (.notFetching s.runState)) ∧
    (s.runState = .faulted → ∀ f, s.fault = some f → step s = .fault f) ∧
    ∀ t, step s ≠ .next t

/-- R30 and R116: SP and the storage-only bits of P, D among them, change nothing a step does and are carried
through it: changing them before the step or after it gives the same outcome. -/
def Obligations.ReservedBitsChangeNothing : Prop :=
  ∀ (s : State) (bits sp : Byte),
    step (withReserved s bits sp) = mapNext (fun t => withReserved t bits sp) (step s)

/-! ## Invariants -/

/-- Every step keeps the invariant: canonical memory, a record exactly when Faulted, never Executing, PC defined in
a run and after HALT (R33, R37, R38). -/
def Obligations.StepKeepsInv : Prop := ∀ s t : State, s.Inv → step s = .next t → t.Inv

/-- The invariant holds after reset. -/
def Obligations.ResetHasInv : Prop := State.reset.Inv

/-- The invariant holds in every state the host interface can bring about, under every configuration. -/
def Obligations.HostReachableStatesHaveInv : Prop := ∀ (c : Config) (s : State), HostReachable c s → s.Inv

/-- R30 and R41: in every state the host interface can bring about X, Y, SP and P bits 2 to 5 hold their reset
values, so the indexed modes add 0. -/
def Obligations.HostReachableStatesIndexByZero : Prop :=
  ∀ (c : Config) (s : State), HostReachable c s → s.IdleStorage ∧
    ∀ pc : Word,
      resolve .zeroPageX pc s = resolve .zeroPage pc s ∧ resolve .zeroPageY pc s = resolve .zeroPage pc s ∧
      resolve .absoluteX pc s = resolve .absolute pc s ∧ resolve .absoluteY pc s = resolve .absolute pc s ∧
      resolve .indirectX pc s = some (zpRead16 s.mem (memRead s.mem pc)) ∧
      resolve .indirectY pc s = some (zpRead16 s.mem (memRead s.mem pc))

/-! ## The host interface (70_reset_and_hazards.md) -/

/-- What construct leaves is R147's, and the refusal of an ill-formed table is R74's. That construct accepts every
table that passes R74, rows outside `standard17` included, is the model's choice (log entry 8, DESIGN CHOICE: R77 does
not oblige it). -/
def Obligations.ConstructGivesPowerOnState : Prop :=
  ∀ c : Config,
    (c.wellFormed = false → construct c = .refused .tableIllFormed) ∧
    (c.wellFormed = true → ∃ t, construct c = .next t ∧ t.a = 0x00 ∧ t.x = 0x00 ∧ t.y = 0x00 ∧ t.p = 0x24 ∧
      t.sp = 0xFD ∧ t.pc = none ∧ t.runState = .idle ∧ t.fault = none ∧ ∀ addr, memRead t.mem addr = 0x00)

/-- R151: power-on registers, PC from the two bytes at the reset vector, Idle; memory and the record unchanged. -/
def Obligations.ResetRestoresRegisters : Prop :=
  ∀ (c : Config) (s : State), Stopped s → ∃ t, resetOp c s = .next t ∧
    t.a = 0x00 ∧ t.x = 0x00 ∧ t.y = 0x00 ∧ t.p = 0x24 ∧ t.sp = 0xFD ∧ t.runState = .idle ∧ t.fault = s.fault ∧
    t.mem = s.mem ∧
    ∃ q : Word, t.pc = some q ∧
      q.toNat = (byteAt s c.resetVectorAddr.toNat).toNat + 256 * (byteAt s (c.resetVectorAddr.toNat + 1)).toNat

/-- The spec's own inferences at R147 and R151: a fresh instance reset with nothing loaded is the model's
`State.reset`, with PC 0x0000, whatever the parameters, and every byte of its memory decodes as HALT. -/
def Obligations.FreshResetIsStateReset : Prop :=
  (∀ c : Config, resetOp c State.powerOn = .next State.reset) ∧ State.reset.pc = some 0x0000 ∧
  ∀ (addr : Word) (rest : List Byte), decode standard17 (memRead State.reset.mem addr :: rest) = .instr .halt rest

/-- R149 and R150 for everything but `run_state`: the image stands at the program region, the vector is written last
and wins, every other byte keeps its value, and no register and not the record changes. `run_state` stands in
LoadKeepsTheInstanceStopped (log entry 7). -/
def Obligations.LoadCopiesImageAndVector : Prop :=
  ∀ (c : Config) (image : List Byte) (s : State), Stopped s → s.mem.wf = true →
    image.length ≤ 0x10000 - c.programLoadAddr.toNat →
      ∃ t, load c image s = .next t ∧ { t with mem := s.mem, runState := s.runState } = s ∧
        memRead16 t.mem c.resetVectorAddr = c.programLoadAddr ∧
        ∀ addr : Word, addr ≠ c.resetVectorAddr → addr ≠ BitVec.ofNat 16 (c.resetVectorAddr.toNat + 1) →
          (∀ k, ∀ h : k < image.length, addr.toNat = c.programLoadAddr.toNat + k → memRead t.mem addr = image[k]) ∧
          (addr.toNat < c.programLoadAddr.toNat ∨ c.programLoadAddr.toNat + image.length ≤ addr.toNat →
            memRead t.mem addr = memRead s.mem addr)

/-- R148: a longer image is refused; the answer carries no state, so nothing changes. -/
def Obligations.LoadRefusesLongImages : Prop :=
  ∀ (c : Config) (image : List Byte) (s : State), Stopped s →
    (0x10000 - c.programLoadAddr.toNat < image.length → load c image s = .refused (.imageTooLong image.length)) ∧
    (image.length ≤ 0x10000 - c.programLoadAddr.toNat → ∃ t, load c image s = .next t)

/-- R149 and R151 together (the source's round trip): after load and reset, PC is the program-load address, whatever
the parameters. -/
def Obligations.LoadThenResetStartsAtLoadAddress : Prop :=
  ∀ (c : Config) (image : List Byte) (s : State), Stopped s → s.mem.wf = true →
    image.length ≤ 0x10000 - c.programLoadAddr.toNat →
      ∃ t u, load c image s = .next t ∧ resetOp c t = .next u ∧ u.pc = some c.programLoadAddr

/-- R133: a run of an instance whose PC is undefined raises PcUndefined before any fetch, code 3; a fresh instance
is one. -/
def Obligations.RunBeforeResetRaises : Prop :=
  Fault.pcUndefined.code = 3 ∧
  (∀ (c : Config) (budget : Nat) (s : State), Stopped s → s.pc = none →
    run c budget s = .next (failed s .pcUndefined)) ∧
  ∀ (c : Config) (budget : Nat) (s : State), construct c = .next s →
    run c budget s = .next (failed s .pcUndefined)

/-- R152 and R156: with PC defined, run answers a state exactly when some number of steps within the budget leads
from the current state, Fetching, to it, and it has left Fetching; that state is Halted or Faulted; and a larger
budget answers the same. -/
def Obligations.RunIsStepsUntilHaltedOrFaulted : Prop :=
  ∀ (c : Config) (budget : Nat) (s t : State), Stopped s → s.pc ≠ none →
    (run c budget s = .next t ↔
      ∃ k, k ≤ budget ∧ StepsTo c.instrTable k { s with runState := .fetching } t ∧ t.runState ≠ .fetching) ∧
    (run c budget s = .next t →
      (t.runState = .halted ∨ t.runState = .faulted) ∧ ∀ more, run c (budget + more) s = .next t)

/-- R153: a run of the state HALT leaves begins by fetching at the address after that HALT. -/
def Obligations.RunResumesAfterHalt : Prop :=
  ∀ (s t : State) (addr : Word), s.pc = some addr → step s = .next t → t.runState = .halted →
    startRun t = .next { t with runState := .fetching } ∧ t.pc = some (BitVec.ofNat 16 (addr.toNat + 1))

/-- R138: on a faulted instance every host operation answers the existing fault and no state; the accessors still
answer. -/
def Obligations.FaultedInstanceAnswersItsFault : Prop :=
  ∀ (c : Config) (image : List Byte) (budget : Nat) (s : State) (f : Fault),
    s.runState = .faulted → s.fault = some f →
      load c image s = .fault f ∧ resetOp c s = .fault f ∧ run c budget s = .fault f ∧
      loadAndRun c image budget s = .fault f ∧
      (hostView s).a = s.a ∧ (hostView s).x = s.x ∧ (hostView s).y = s.y ∧ (hostView s).p = s.p ∧
      (hostView s).sp = s.sp ∧ (hostView s).pc = s.pc

/-- R154: load_and_run is load, then reset, then run; if load is refused nothing further happens. -/
def Obligations.LoadAndRunComposes : Prop :=
  ∀ (c : Config) (image : List Byte) (budget : Nat) (s : State),
    (∀ t, loadAndRun c image budget s = .next t ↔
      ∃ l r, load c image s = .next l ∧ resetOp c l = .next r ∧ run c budget r = .next t) ∧
    ∀ w, load c image s = .refused w → loadAndRun c image budget s = .refused w

/-- R157: under the defaults, every image that fits, loaded into a fresh instance, runs to Halted or Faulted within
32 768 steps. -/
def Obligations.FreshRunsEndWithin32768Steps : Prop :=
  ∀ image : List Byte, image.length ≤ 32768 →
    ∃ s t, construct Config.default = .next s ∧ loadAndRun Config.default image 32768 s = .next t ∧
      (t.runState = .halted ∨ t.runState = .faulted)

/-- R42 with the bit layout of R25: the accessors answer the registers as they stand, an undefined PC as undefined,
and each flag as its bit of P. -/
def Obligations.AccessorsReadNamedBits : Prop :=
  ∀ s : State,
    let v := hostView s
    v.a = s.a ∧ v.x = s.x ∧ v.y = s.y ∧ v.p = s.p ∧ v.sp = s.sp ∧ (v.pc = none ↔ s.pc = none) ∧ v.pc = s.pc ∧
    s.p.toNat = v.flagC.toNat + 2 * v.flagZ.toNat + 4 * v.flagI.toNat + 8 * v.flagD.toNat + 16 * v.flagB.toNat +
      32 * v.flagU.toNat + 64 * v.flagV.toNat + 128 * v.flagN.toNat

/-! ## The run state after a load, and the invariants of the whole host interface -/

/-- A load changes no `run_state` (R149), so the instance stays stopped: Idle stays Idle and Halted stays Halted. R37 and
R145 read otherwise of a Halted instance; the model follows R149 (log entry 7, DEDUCED). Nothing rests on it but the
field itself: reset, run and a further load of what load left go as they go from Idle. -/
def Obligations.LoadKeepsTheInstanceStopped : Prop :=
  ∀ (c : Config) (image : List Byte) (s t : State), load c image s = .next t →
    t.runState = s.runState ∧ Stopped t ∧
    resetOp c t = resetOp c { t with runState := .idle } ∧
    (∀ budget, run c budget t = run c budget { t with runState := .idle }) ∧
    ∀ more, mapNext (fun u => { u with runState := .idle }) (load c more t) = load c more { t with runState := .idle }

/-- Construction gives a state with the invariant, and whatever the host calls on a state that has it, and every step
of a run under any table, leaves a state that has it. -/
def Obligations.HostOperationsKeepInv : Prop :=
  ∀ (c : Config) (t : State),
    (construct c = .next t → t.Inv) ∧
    ∀ (image : List Byte) (budget : Nat) (s : State), s.Inv →
      load c image s = .next t ∨ resetOp c s = .next t ∨ startRun s = .next t ∨ stepWith c.instrTable s = .next t ∨
      run c budget s = .next t ∨ loadAndRun c image budget s = .next t →
        t.Inv

/-- The same of the storage-only state: X, Y, SP and P bits 2 to 5 stay at their reset values (R30 and R41, the spec's
own inference). -/
def Obligations.HostOperationsKeepIdleStorage : Prop :=
  ∀ (c : Config) (t : State),
    (construct c = .next t → t.IdleStorage) ∧
    ∀ (image : List Byte) (budget : Nat) (s : State), s.IdleStorage →
      load c image s = .next t ∨ resetOp c s = .next t ∨ startRun s = .next t ∨ stepWith c.instrTable s = .next t ∨
      run c budget s = .next t ∨ loadAndRun c image budget s = .next t →
        t.IdleStorage
end

