-- ==== Sys2Proof/Laws/Decode.lean ====
section
/-! SUPPORT. The tables, the entries and the operand bytes: what the decoder's and the encoder's parts say. -/

namespace Sys2Proof

/-- A looked-up entry is a row of the table and carries the opcode byte asked for (R75). -/
theorem lookup_some {t : InstrTable} {op : Byte} {e : Entry} (h : lookup t op = some e) :
    e ∈ t ∧ e.opcode = op := by
  induction t with
  | nil => simp [lookup] at h
  | cons d t ih =>
    unfold lookup at h
    split at h
    · obtain rfl : d = e := by simpa using h
      exact ⟨by simp, ‹_›⟩
    · exact ⟨List.mem_cons_of_mem _ (ih h).1, (ih h).2⟩

/-- An instruction is well-formed under a table exactly when looking its opcode up gives its row (R77). -/
theorem instrWellFormed_iff {t : InstrTable} {i : Instr} :
    instrWellFormed t i = true ↔ lookup t (opcodeOf i) = some (entryOf i) := decide_eq_true_iff

/-- The two halves of a word put together give the word (R50, R69). -/
@[simp] theorem wordOf_bytes (w : Word) : wordOf (highByte w) (lowByte w) = w := by
  apply BitVec.eq_of_getLsbD_eq
  intro i hi
  simp only [wordOf, highByte, lowByte, BitVec.getLsbD_append, BitVec.getLsbD_extractLsb']
  by_cases h : i < 8
  · simp [h]
  · have h8 : i - 8 < 8 := by omega
    have h9 : 8 + (i - 8) = i := by omega
    simp [h, h8, h9]

@[simp] theorem lowByte_wordOf (hi lo : Byte) : lowByte (wordOf hi lo) = lo := by
  apply BitVec.eq_of_getLsbD_eq
  intro i h
  simp only [wordOf, lowByte, BitVec.getLsbD_extractLsb', BitVec.getLsbD_append]
  simp [h]

@[simp] theorem highByte_wordOf (hi lo : Byte) : highByte (wordOf hi lo) = hi := by
  apply BitVec.eq_of_getLsbD_eq
  intro i h
  simp only [wordOf, highByte, BitVec.getLsbD_extractLsb', BitVec.getLsbD_append]
  simp [h]

/-- A word as a number: high byte times 256 plus low byte (R13, R49). -/
theorem wordOf_toNat (hi lo : Byte) : (wordOf hi lo).toNat = hi.toNat * 256 + lo.toNat := by
  have hlt : lo.toNat < 2 ^ 8 := lo.isLt
  rw [wordOf, BitVec.toNat_append, ← Nat.shiftLeft_add_eq_or_of_lt hlt, Nat.shiftLeft_eq]

/-- The default table and the profile `shown` pass the checks of R74. -/
theorem standard17_wellFormed : tableWellFormed standard17 = true := by decide

theorem shown_wellFormed : tableWellFormed shown = true := by decide

end Sys2Proof
end

