-- ==== Sys2Proof/Laws/Flags.lean ====
section
/-! SUPPORT. Bits of the status register: what a named write and the flag computations leave in each bit. -/

namespace Sys2Proof.Machine

/-- A bit write changes its own bit and no other (R36). -/
theorem getLsbD_setBit (p : Byte) {i : Nat} (hi : i < 8) (b : Bool) (j : Nat) :
    (setBit p i b).getLsbD j = if j = i then b else p.getLsbD j := by
  by_cases hj : j = i
  · subst hj
    cases b <;> simp [setBit, hi]
  · by_cases h8 : j < 8
    · cases b <;> simp [setBit, hj, h8]
    · have h8' : 8 ≤ j := by omega
      cases b <;> simp [setBit, hj, BitVec.getLsbD_of_ge _ _ h8']

theorem getLsbD_setC (p : Byte) (b : Bool) (j : Nat) :
    (setC p b).getLsbD j = if j = 0 then b else p.getLsbD j := getLsbD_setBit p (by decide) b j

theorem getLsbD_setZ (p : Byte) (b : Bool) (j : Nat) :
    (setZ p b).getLsbD j = if j = 1 then b else p.getLsbD j := getLsbD_setBit p (by decide) b j

theorem getLsbD_setV (p : Byte) (b : Bool) (j : Nat) :
    (setV p b).getLsbD j = if j = 6 then b else p.getLsbD j := getLsbD_setBit p (by decide) b j

theorem getLsbD_setN (p : Byte) (b : Bool) (j : Nat) :
    (setN p b).getLsbD j = if j = 7 then b else p.getLsbD j := getLsbD_setBit p (by decide) b j

/-- Every bit after the flag updater. -/
theorem getLsbD_updateZeroNegative (p r : Byte) (j : Nat) :
    (updateZeroNegative p r).getLsbD j =
      if j = 7 then r.getLsbD 7 else if j = 1 then decide (r = 0#8) else p.getLsbD j := by
  simp [updateZeroNegative, getLsbD_setN, getLsbD_setZ]

/-- Every bit of the status register after ADC. -/
theorem getLsbD_adcStatus (p a m : Byte) (j : Nat) :
    (adcStatus p a m).getLsbD j =
      if j = 7 then (adcResult a m (getC p)).getLsbD 7
      else if j = 1 then decide (adcResult a m (getC p) = 0#8)
      else if j = 6 then adcOverflow a m (getC p)
      else if j = 0 then adcCarry a m (getC p)
      else p.getLsbD j := by
  simp [adcStatus, getLsbD_updateZeroNegative, getLsbD_setV, getLsbD_setC]

/-! ## Each named flag after each named write -/

@[simp] theorem getC_setC (p : Byte) (b : Bool) : getC (setC p b) = b := getLsbD_setC p b 0
@[simp] theorem getZ_setC (p : Byte) (b : Bool) : getZ (setC p b) = getZ p := getLsbD_setC p b 1
@[simp] theorem getI_setC (p : Byte) (b : Bool) : getI (setC p b) = getI p := getLsbD_setC p b 2
@[simp] theorem getD_setC (p : Byte) (b : Bool) : getD (setC p b) = getD p := getLsbD_setC p b 3
@[simp] theorem getB_setC (p : Byte) (b : Bool) : getB (setC p b) = getB p := getLsbD_setC p b 4
@[simp] theorem getU_setC (p : Byte) (b : Bool) : getU (setC p b) = getU p := getLsbD_setC p b 5
@[simp] theorem getV_setC (p : Byte) (b : Bool) : getV (setC p b) = getV p := getLsbD_setC p b 6
@[simp] theorem getN_setC (p : Byte) (b : Bool) : getN (setC p b) = getN p := getLsbD_setC p b 7
@[simp] theorem getC_setZ (p : Byte) (b : Bool) : getC (setZ p b) = getC p := getLsbD_setZ p b 0
@[simp] theorem getZ_setZ (p : Byte) (b : Bool) : getZ (setZ p b) = b := getLsbD_setZ p b 1
@[simp] theorem getI_setZ (p : Byte) (b : Bool) : getI (setZ p b) = getI p := getLsbD_setZ p b 2
@[simp] theorem getD_setZ (p : Byte) (b : Bool) : getD (setZ p b) = getD p := getLsbD_setZ p b 3
@[simp] theorem getB_setZ (p : Byte) (b : Bool) : getB (setZ p b) = getB p := getLsbD_setZ p b 4
@[simp] theorem getU_setZ (p : Byte) (b : Bool) : getU (setZ p b) = getU p := getLsbD_setZ p b 5
@[simp] theorem getV_setZ (p : Byte) (b : Bool) : getV (setZ p b) = getV p := getLsbD_setZ p b 6
@[simp] theorem getN_setZ (p : Byte) (b : Bool) : getN (setZ p b) = getN p := getLsbD_setZ p b 7
@[simp] theorem getC_setV (p : Byte) (b : Bool) : getC (setV p b) = getC p := getLsbD_setV p b 0
@[simp] theorem getZ_setV (p : Byte) (b : Bool) : getZ (setV p b) = getZ p := getLsbD_setV p b 1
@[simp] theorem getI_setV (p : Byte) (b : Bool) : getI (setV p b) = getI p := getLsbD_setV p b 2
@[simp] theorem getD_setV (p : Byte) (b : Bool) : getD (setV p b) = getD p := getLsbD_setV p b 3
@[simp] theorem getB_setV (p : Byte) (b : Bool) : getB (setV p b) = getB p := getLsbD_setV p b 4
@[simp] theorem getU_setV (p : Byte) (b : Bool) : getU (setV p b) = getU p := getLsbD_setV p b 5
@[simp] theorem getV_setV (p : Byte) (b : Bool) : getV (setV p b) = b := getLsbD_setV p b 6
@[simp] theorem getN_setV (p : Byte) (b : Bool) : getN (setV p b) = getN p := getLsbD_setV p b 7
@[simp] theorem getC_setN (p : Byte) (b : Bool) : getC (setN p b) = getC p := getLsbD_setN p b 0
@[simp] theorem getZ_setN (p : Byte) (b : Bool) : getZ (setN p b) = getZ p := getLsbD_setN p b 1
@[simp] theorem getI_setN (p : Byte) (b : Bool) : getI (setN p b) = getI p := getLsbD_setN p b 2
@[simp] theorem getD_setN (p : Byte) (b : Bool) : getD (setN p b) = getD p := getLsbD_setN p b 3
@[simp] theorem getB_setN (p : Byte) (b : Bool) : getB (setN p b) = getB p := getLsbD_setN p b 4
@[simp] theorem getU_setN (p : Byte) (b : Bool) : getU (setN p b) = getU p := getLsbD_setN p b 5
@[simp] theorem getV_setN (p : Byte) (b : Bool) : getV (setN p b) = getV p := getLsbD_setN p b 6
@[simp] theorem getN_setN (p : Byte) (b : Bool) : getN (setN p b) = b := getLsbD_setN p b 7

/-! ## Each named flag after the flag updater and after ADC -/

@[simp] theorem getC_updateZeroNegative (p r : Byte) : getC (updateZeroNegative p r) = getC p :=
  getLsbD_updateZeroNegative p r 0
@[simp] theorem getZ_updateZeroNegative (p r : Byte) : getZ (updateZeroNegative p r) = decide (r = 0#8) :=
  getLsbD_updateZeroNegative p r 1
@[simp] theorem getI_updateZeroNegative (p r : Byte) : getI (updateZeroNegative p r) = getI p :=
  getLsbD_updateZeroNegative p r 2
@[simp] theorem getD_updateZeroNegative (p r : Byte) : getD (updateZeroNegative p r) = getD p :=
  getLsbD_updateZeroNegative p r 3
@[simp] theorem getB_updateZeroNegative (p r : Byte) : getB (updateZeroNegative p r) = getB p :=
  getLsbD_updateZeroNegative p r 4
@[simp] theorem getU_updateZeroNegative (p r : Byte) : getU (updateZeroNegative p r) = getU p :=
  getLsbD_updateZeroNegative p r 5
@[simp] theorem getV_updateZeroNegative (p r : Byte) : getV (updateZeroNegative p r) = getV p :=
  getLsbD_updateZeroNegative p r 6
@[simp] theorem getN_updateZeroNegative (p r : Byte) : getN (updateZeroNegative p r) = r.getLsbD 7 :=
  getLsbD_updateZeroNegative p r 7
@[simp] theorem getC_adcStatus (p a m : Byte) : getC (adcStatus p a m) = adcCarry a m (getC p) :=
  getLsbD_adcStatus p a m 0
@[simp] theorem getZ_adcStatus (p a m : Byte) : getZ (adcStatus p a m) = decide (adcResult a m (getC p) = 0#8) :=
  getLsbD_adcStatus p a m 1
@[simp] theorem getI_adcStatus (p a m : Byte) : getI (adcStatus p a m) = getI p :=
  getLsbD_adcStatus p a m 2
@[simp] theorem getD_adcStatus (p a m : Byte) : getD (adcStatus p a m) = getD p :=
  getLsbD_adcStatus p a m 3
@[simp] theorem getB_adcStatus (p a m : Byte) : getB (adcStatus p a m) = getB p :=
  getLsbD_adcStatus p a m 4
@[simp] theorem getU_adcStatus (p a m : Byte) : getU (adcStatus p a m) = getU p :=
  getLsbD_adcStatus p a m 5
@[simp] theorem getV_adcStatus (p a m : Byte) : getV (adcStatus p a m) = adcOverflow a m (getC p) :=
  getLsbD_adcStatus p a m 6
@[simp] theorem getN_adcStatus (p a m : Byte) : getN (adcStatus p a m) = (adcResult a m (getC p)).getLsbD 7 :=
  getLsbD_adcStatus p a m 7

/-- Carry out, as a proposition (R112). -/
theorem adcCarry_eq_true_iff {a m : Byte} {c : Bool} : adcCarry a m c = true ↔ 0xFF < adcSum a m c :=
  decide_eq_true_iff

/-- Overflow, as a proposition (R113). -/
theorem adcOverflow_eq_true_iff {a m : Byte} {c : Bool} :
    adcOverflow a m c = true ↔
      a.getLsbD 7 = m.getLsbD 7 ∧ (adcResult a m c).getLsbD 7 ≠ a.getLsbD 7 :=
  decide_eq_true_iff

/-- Bit 7 of a byte is set exactly from 128 on. -/
theorem getLsbD_seven_eq_true_iff {v : Byte} : v.getLsbD 7 = true ↔ 128 ≤ v.toNat := by
  rw [← BitVec.msb_eq_getLsbD_last]
  simp [BitVec.msb_eq_decide]

/-- The ADC sum fits in nine bits (R111). -/
theorem adcSum_le (a m : Byte) (c : Bool) : adcSum a m c ≤ 511 := by
  have ha := a.isLt
  have hm := m.isLt
  have hc : c.toNat ≤ 1 := by cases c <;> decide
  unfold adcSum
  omega

end Sys2Proof.Machine
end

