-- ==== Sys2Proof/Laws/State.lean ====
section
/-! SUPPORT. What each update of the state leaves in each field: one lemma a field, true by definition, so that no
later proof unfolds a record update. -/

namespace Sys2Proof.Machine

/-! ## beginExecute -/

@[simp] theorem beginExecute_a (addr : Word) (s : State) : (beginExecute addr s).a = s.a := rfl
@[simp] theorem beginExecute_x (addr : Word) (s : State) : (beginExecute addr s).x = s.x := rfl
@[simp] theorem beginExecute_y (addr : Word) (s : State) : (beginExecute addr s).y = s.y := rfl
@[simp] theorem beginExecute_p (addr : Word) (s : State) : (beginExecute addr s).p = s.p := rfl
@[simp] theorem beginExecute_sp (addr : Word) (s : State) : (beginExecute addr s).sp = s.sp := rfl
@[simp] theorem beginExecute_pc (addr : Word) (s : State) : (beginExecute addr s).pc = some (addr + 1#16) := rfl
@[simp] theorem beginExecute_mem (addr : Word) (s : State) : (beginExecute addr s).mem = s.mem := rfl
@[simp] theorem beginExecute_runState (addr : Word) (s : State) : (beginExecute addr s).runState = .executing := rfl
@[simp] theorem beginExecute_fault (addr : Word) (s : State) : (beginExecute addr s).fault = s.fault := rfl

/-! ## advance -/

@[simp] theorem advance_a (n : Nat) (s : State) : (advance n s).a = s.a := rfl
@[simp] theorem advance_x (n : Nat) (s : State) : (advance n s).x = s.x := rfl
@[simp] theorem advance_y (n : Nat) (s : State) : (advance n s).y = s.y := rfl
@[simp] theorem advance_p (n : Nat) (s : State) : (advance n s).p = s.p := rfl
@[simp] theorem advance_sp (n : Nat) (s : State) : (advance n s).sp = s.sp := rfl
@[simp] theorem advance_pc (n : Nat) (s : State) : (advance n s).pc = s.pc.map (fun q => q + BitVec.ofNat 16 n) := rfl
@[simp] theorem advance_mem (n : Nat) (s : State) : (advance n s).mem = s.mem := rfl
@[simp] theorem advance_runState (n : Nat) (s : State) : (advance n s).runState = .fetching := rfl
@[simp] theorem advance_fault (n : Nat) (s : State) : (advance n s).fault = s.fault := rfl

/-! ## raise -/

@[simp] theorem raise_a (f : Fault) (s : State) : (raise f s).a = s.a := rfl
@[simp] theorem raise_x (f : Fault) (s : State) : (raise f s).x = s.x := rfl
@[simp] theorem raise_y (f : Fault) (s : State) : (raise f s).y = s.y := rfl
@[simp] theorem raise_p (f : Fault) (s : State) : (raise f s).p = s.p := rfl
@[simp] theorem raise_sp (f : Fault) (s : State) : (raise f s).sp = s.sp := rfl
@[simp] theorem raise_pc (f : Fault) (s : State) : (raise f s).pc = s.pc := rfl
@[simp] theorem raise_mem (f : Fault) (s : State) : (raise f s).mem = s.mem := rfl
@[simp] theorem raise_runState (f : Fault) (s : State) : (raise f s).runState = .faulted := rfl
@[simp] theorem raise_fault (f : Fault) (s : State) : (raise f s).fault = some f := rfl

/-! ## haltRun -/

@[simp] theorem haltRun_a (s : State) : (haltRun s).a = s.a := rfl
@[simp] theorem haltRun_x (s : State) : (haltRun s).x = s.x := rfl
@[simp] theorem haltRun_y (s : State) : (haltRun s).y = s.y := rfl
@[simp] theorem haltRun_p (s : State) : (haltRun s).p = s.p := rfl
@[simp] theorem haltRun_sp (s : State) : (haltRun s).sp = s.sp := rfl
@[simp] theorem haltRun_pc (s : State) : (haltRun s).pc = s.pc := rfl
@[simp] theorem haltRun_mem (s : State) : (haltRun s).mem = s.mem := rfl
@[simp] theorem haltRun_runState (s : State) : (haltRun s).runState = .halted := rfl
@[simp] theorem haltRun_fault (s : State) : (haltRun s).fault = s.fault := rfl

/-! ## loadAccumulator -/

@[simp] theorem loadAccumulator_a (v : Byte) (s : State) : (loadAccumulator v s).a = v := rfl
@[simp] theorem loadAccumulator_x (v : Byte) (s : State) : (loadAccumulator v s).x = s.x := rfl
@[simp] theorem loadAccumulator_y (v : Byte) (s : State) : (loadAccumulator v s).y = s.y := rfl
@[simp] theorem loadAccumulator_p (v : Byte) (s : State) : (loadAccumulator v s).p = updateZeroNegative s.p v := rfl
@[simp] theorem loadAccumulator_sp (v : Byte) (s : State) : (loadAccumulator v s).sp = s.sp := rfl
@[simp] theorem loadAccumulator_pc (v : Byte) (s : State) : (loadAccumulator v s).pc = s.pc := rfl
@[simp] theorem loadAccumulator_mem (v : Byte) (s : State) : (loadAccumulator v s).mem = s.mem := rfl
@[simp] theorem loadAccumulator_runState (v : Byte) (s : State) : (loadAccumulator v s).runState = s.runState := rfl
@[simp] theorem loadAccumulator_fault (v : Byte) (s : State) : (loadAccumulator v s).fault = s.fault := rfl

/-! ## addWithCarry -/

@[simp] theorem addWithCarry_a (m : Byte) (s : State) : (addWithCarry m s).a = adcResult s.a m (getC s.p) := rfl
@[simp] theorem addWithCarry_x (m : Byte) (s : State) : (addWithCarry m s).x = s.x := rfl
@[simp] theorem addWithCarry_y (m : Byte) (s : State) : (addWithCarry m s).y = s.y := rfl
@[simp] theorem addWithCarry_p (m : Byte) (s : State) : (addWithCarry m s).p = adcStatus s.p s.a m := rfl
@[simp] theorem addWithCarry_sp (m : Byte) (s : State) : (addWithCarry m s).sp = s.sp := rfl
@[simp] theorem addWithCarry_pc (m : Byte) (s : State) : (addWithCarry m s).pc = s.pc := rfl
@[simp] theorem addWithCarry_mem (m : Byte) (s : State) : (addWithCarry m s).mem = s.mem := rfl
@[simp] theorem addWithCarry_runState (m : Byte) (s : State) : (addWithCarry m s).runState = s.runState := rfl
@[simp] theorem addWithCarry_fault (m : Byte) (s : State) : (addWithCarry m s).fault = s.fault := rfl

/-! ## resetState -/

@[simp] theorem resetState_a (c : Config) (s : State) : (resetState c s).a = 0x00#8 := rfl
@[simp] theorem resetState_x (c : Config) (s : State) : (resetState c s).x = 0x00#8 := rfl
@[simp] theorem resetState_y (c : Config) (s : State) : (resetState c s).y = 0x00#8 := rfl
@[simp] theorem resetState_p (c : Config) (s : State) : (resetState c s).p = 0x24#8 := rfl
@[simp] theorem resetState_sp (c : Config) (s : State) : (resetState c s).sp = 0xFD#8 := rfl
@[simp] theorem resetState_pc (c : Config) (s : State) : (resetState c s).pc = some (memRead16 s.mem c.resetVectorAddr) := rfl
@[simp] theorem resetState_mem (c : Config) (s : State) : (resetState c s).mem = s.mem := rfl
@[simp] theorem resetState_runState (c : Config) (s : State) : (resetState c s).runState = .idle := rfl
@[simp] theorem resetState_fault (c : Config) (s : State) : (resetState c s).fault = s.fault := rfl

/-! ## loadedState -/

@[simp] theorem loadedState_a (c : Config) (image : List Byte) (s : State) : (loadedState c image s).a = s.a := rfl
@[simp] theorem loadedState_x (c : Config) (image : List Byte) (s : State) : (loadedState c image s).x = s.x := rfl
@[simp] theorem loadedState_y (c : Config) (image : List Byte) (s : State) : (loadedState c image s).y = s.y := rfl
@[simp] theorem loadedState_p (c : Config) (image : List Byte) (s : State) : (loadedState c image s).p = s.p := rfl
@[simp] theorem loadedState_sp (c : Config) (image : List Byte) (s : State) : (loadedState c image s).sp = s.sp := rfl
@[simp] theorem loadedState_pc (c : Config) (image : List Byte) (s : State) : (loadedState c image s).pc = s.pc := rfl
@[simp] theorem loadedState_fault (c : Config) (image : List Byte) (s : State) : (loadedState c image s).fault = s.fault := rfl
@[simp] theorem loadedState_mem (c : Config) (image : List Byte) (s : State) :
    (loadedState c image s).mem = loadedMemory c s.mem image := rfl
@[simp] theorem loadedState_runState (c : Config) (image : List Byte) (s : State) :
    (loadedState c image s).runState = s.runState := rfl

/-! ## The states the spec names -/

/-- `State.reset` is what `reset()` leaves of a freshly constructed instance (R39, R147, R151). -/
theorem reset_eq_resetState_powerOn : State.reset = resetState Config.default State.powerOn := by decide

end Sys2Proof.Machine
end

