-- ==== Sys2Proof/Laws/Step.lean ====
section
/-! SUPPORT. Said once: everything an instruction, an entry, a fetch and a step can do. Later proofs cite these
inversions instead of unfolding the machine. -/

namespace Sys2Proof.Machine

/-- Resolving fails for mode None and for no other (R91). -/
theorem resolve_eq_none_iff {mode : Mode} {pc : Word} {s : State} : resolve mode pc s = none ↔ mode = .none := by
  cases mode <;> simp [resolve]

/-- Every instruction answers a next state: a halt, a load or an addition followed by the advance by its mode's
operand length (R95, R96, R98). -/
theorem exec_cases (i : Instr) (s : State) :
    (i = .halt ∧ exec i s = .next (haltRun s)) ∨
    (operationOf i = .lda ∧ ∃ v, exec i s = .next (advance (modeLength (modeOf i)) (loadAccumulator v s))) ∨
    (operationOf i = .adc ∧ ∃ m, exec i s = .next (advance (modeLength (modeOf i)) (addWithCarry m s))) := by
  cases i with
  | halt => exact .inl ⟨rfl, rfl⟩
  | ldaImmediate _ | ldaZeroPage _ | ldaZeroPageX _ | ldaAbsolute _ | ldaAbsoluteX _ | ldaAbsoluteY _
  | ldaIndirectX _ | ldaIndirectY _ => exact .inr (.inl ⟨rfl, _, rfl⟩)
  | adcImmediate _ | adcZeroPage _ | adcZeroPageX _ | adcAbsolute _ | adcAbsoluteX _ | adcAbsoluteY _
  | adcIndirectX _ | adcIndirectY _ => exact .inr (.inr ⟨rfl, _, rfl⟩)

/-- Everything an entry's execute phase can leave. -/
theorem performEntry_cases (e : Entry) (addr : Word) (s : State) :
    (e.operation = .halt ∧ performEntry e addr s = haltRun (beginExecute addr s)) ∨
    (e.operation = .lda ∧ ∃ v, performEntry e addr s = advance e.length (loadAccumulator v (beginExecute addr s))) ∨
    (e.operation = .adc ∧ ∃ m, performEntry e addr s = advance e.length (addWithCarry m (beginExecute addr s))) ∨
    (e.operation ≠ .halt ∧ e.mode = .none ∧
      performEntry e addr s = raise (.unsupportedAddressingMode e.opcode addr e.mode) s) := by
  rcases e with ⟨op, operation, mode, len⟩
  cases operation with
  | halt => exact .inl ⟨rfl, rfl⟩
  | lda =>
    cases h : resolve mode (addr + 1#16) s with
    | none => exact .inr (.inr (.inr ⟨by simp, resolve_eq_none_iff.1 h, by simp only [performEntry, h]⟩))
    | some ea => exact .inr (.inl ⟨rfl, memRead s.mem ea, by simp only [performEntry, h]⟩)
  | adc =>
    cases h : resolve mode (addr + 1#16) s with
    | none => exact .inr (.inr (.inr ⟨by simp, resolve_eq_none_iff.1 h, by simp only [performEntry, h]⟩))
    | some ea => exact .inr (.inr (.inl ⟨rfl, memRead s.mem ea, by simp only [performEntry, h]⟩))

/-- Outside Fetching no next state is answered (R93). -/
theorem noStep_ne_next (s t : State) : noStep s ≠ .next t := by
  unfold noStep
  split <;> simp

/-- A step that answers a next state began in Fetching, and the next state is one of: an error taken on the state
before the step, a halt, a load, an addition (R93 to R99). -/
theorem stepWith_cases {table : InstrTable} {s t : State} (h : stepWith table s = .next t) :
    s.runState = .fetching ∧
      ((∃ f, t = raise f s) ∨
       ∃ addr, s.pc = some addr ∧
        (t = haltRun (beginExecute addr s) ∨
         (∃ n v, t = advance n (loadAccumulator v (beginExecute addr s))) ∨
         ∃ n m, t = advance n (addWithCarry m (beginExecute addr s)))) := by
  unfold stepWith at h
  split at h
  case isFalse => exact absurd h (noStep_ne_next s t)
  case isTrue hf =>
    refine ⟨hf, ?_⟩
    split at h
    case h_1 f _ => exact .inl ⟨f, by simpa using h.symm⟩
    case h_2 i addr hfetch =>
      refine .inr ⟨addr, ?_, ?_⟩
      · unfold fetch at hfetch
        split at hfetch
        · simp at hfetch
        · split at hfetch
          · simp at hfetch
          · split at hfetch <;> simp_all
      · rcases exec_cases i (beginExecute addr s) with ⟨-, hx⟩ | ⟨-, v, hx⟩ | ⟨-, m, hx⟩ <;>
          rw [hx] at h <;> cases h
        · exact .inl rfl
        · exact .inr (.inl ⟨_, v, rfl⟩)
        · exact .inr (.inr ⟨_, m, rfl⟩)
    case h_3 e addr hfetch =>
      have hpc : s.pc = some addr := by
        unfold fetch at hfetch
        split at hfetch
        · simp at hfetch
        · split at hfetch
          · simp at hfetch
          · split at hfetch <;> simp_all
      cases h
      rcases performEntry_cases e addr s with ⟨-, hx⟩ | ⟨-, v, hx⟩ | ⟨-, m, hx⟩ | ⟨-, -, hx⟩ <;> rw [hx]
      · exact .inr ⟨addr, hpc, .inl rfl⟩
      · exact .inr ⟨addr, hpc, .inr (.inl ⟨_, v, rfl⟩)⟩
      · exact .inr ⟨addr, hpc, .inr (.inr ⟨_, m, rfl⟩)⟩
      · exact .inl ⟨_, rfl⟩

end Sys2Proof.Machine
end

