-- ==== Sys2Proof/Laws/HostOps.lean ====
section
/-! SUPPORT. Said once: everything a host operation can do when it answers a next state. -/

namespace Sys2Proof.Machine

/-- A sequence of operations answers a next state only through one of its first part. -/
theorem andThen_next {r : Host.Outcome State Fault Refusal} {k : State → Host.Outcome State Fault Refusal}
    {t : State} (h : andThen r k = .next t) : ∃ s, r = .next s ∧ k s = .next t := by
  cases r with
  | next s => exact ⟨s, rfl, h⟩
  | fault f => simp [andThen] at h
  | refused w => simp [andThen] at h

/-- A host operation answers a next state only in Idle or Halted (R146). -/
theorem whenStopped_next {s t : State} {k : Host.Outcome State Fault Refusal} (h : whenStopped s k = .next t) :
    (s.runState = .idle ∨ s.runState = .halted) ∧ k = .next t := by
  unfold whenStopped at h
  split at h <;> simp_all

/-- In Idle or Halted a host operation goes ahead (R146). -/
theorem whenStopped_allowed {s : State} (h : s.runState = .idle ∨ s.runState = .halted)
    (k : Host.Outcome State Fault Refusal) : whenStopped s k = k := by
  unfold whenStopped
  rcases h with h | h <;> simp [h]

/-- Everything `construct` can answer as a next state (R147). -/
theorem construct_next {c : Config} {t : State} (h : construct c = .next t) :
    c.wellFormed = true ∧ t = State.powerOn := by
  unfold construct at h
  split at h <;> simp_all

/-- Everything `load` can leave (R149). -/
theorem load_next {c : Config} {image : List Byte} {s t : State} (h : load c image s = .next t) :
    (s.runState = .idle ∨ s.runState = .halted) ∧ imageFits c image = true ∧
      t = loadedState c image s := by
  obtain ⟨hs, hk⟩ := whenStopped_next h
  split at hk <;> simp_all

/-- Everything `reset()` can leave (R151). -/
theorem resetOp_next {c : Config} {s t : State} (h : resetOp c s = .next t) :
    (s.runState = .idle ∨ s.runState = .halted) ∧ t = resetState c s := by
  obtain ⟨hs, hk⟩ := whenStopped_next h
  simp_all

/-- Everything the beginning of `run()` can leave (R152). -/
theorem startRun_next {s t : State} (h : startRun s = .next t) :
    (s.runState = .idle ∨ s.runState = .halted) ∧
      ((s.pc = none ∧ t = raise .pcUndefined s) ∨
       ∃ addr, s.pc = some addr ∧ t = { s with runState := .fetching }) := by
  obtain ⟨hs, hk⟩ := whenStopped_next h
  refine ⟨hs, ?_⟩
  split at hk <;> simp_all

/-- What every step of a run keeps, the loop of `run()` keeps (R152). -/
theorem runLoop_keeps {P : State → Prop} {table : InstrTable}
    (hstep : ∀ s t, P s → stepWith table s = .next t → P t) :
    ∀ (budget : Nat) (s t : State), P s → runLoop table budget s = .next t → P t := by
  intro budget
  induction budget with
  | zero =>
    intro s t hs ht
    simp only [runLoop] at ht
    split at ht <;> simp_all
  | succ n ih =>
    intro s t hs ht
    simp only [runLoop] at ht
    split at ht
    · obtain ⟨u, hu, hk⟩ := andThen_next ht
      exact ih u t (hstep s u hs hu) hk
    · simp_all

/-- What the beginning of a run and every step of it keep, `run()` keeps (R152). -/
theorem run_keeps {P : State → Prop} {c : Config} (hstart : ∀ s t, P s → startRun s = .next t → P t)
    (hstep : ∀ s t, P s → stepWith c.instrTable s = .next t → P t) {budget : Nat} {s t : State} (hs : P s)
    (h : run c budget s = .next t) : P t := by
  obtain ⟨u, hu, hk⟩ := andThen_next h
  exact runLoop_keeps hstep _ _ _ (hstart s u hs hu) hk

/-- A `load_and_run` that answers is a load, a reset and a run that answer (R154). -/
theorem loadAndRun_next {c : Config} {image : List Byte} {budget : Nat} {s t : State}
    (h : loadAndRun c image budget s = .next t) :
    ∃ l r, load c image s = .next l ∧ resetOp c l = .next r ∧ run c budget r = .next t := by
  obtain ⟨l, hl, hk⟩ := andThen_next h
  obtain ⟨r, hr, hk⟩ := andThen_next hk
  exact ⟨l, r, hl, hr, hk⟩

end Sys2Proof.Machine
end

