-- ==== Sys2Proof/Laws/Memory.lean ====
section
/-! SUPPORT. Memory: what a cell write changes, and that every memory operation keeps the canonical form. -/

namespace Sys2Proof.Machine

/-! ## Cells -/

/-- The canonical form of a list with a head cell, part by part. -/
theorem wf_cons {k : Nat} {v : Byte} {m : Memory} :
    Memory.wf ((k, v) :: m) = true ↔
      k < 65536 ∧ v ≠ unwrittenByte ∧ (∀ c ∈ m, k < c.1) ∧ Memory.wf m = true := by
  simp [Memory.wf, and_assoc]

/-- A key below every listed key reads as unwritten. -/
theorem cellAt_of_lt {m : Memory} {n : Nat} (h : ∀ c ∈ m, n < c.1) : cellAt m n = unwrittenByte := by
  induction m with
  | nil => rfl
  | cons c m ih =>
    have hc : c.1 ≠ n := (Nat.ne_of_lt (h c (by simp))).symm
    simpa [cellAt, hc] using ih fun d hd => h d (by simp [hd])

/-- Every cell of a written memory is the new one or an old one. -/
theorem mem_putCell {m : Memory} {n : Nat} {b : Byte} {c : Host.Cell} (h : c ∈ putCell m n b) :
    c.1 = n ∨ c ∈ m := by
  induction m with
  | nil =>
    simp only [putCell] at h
    split at h <;> simp_all
  | cons d m ih =>
    simp only [putCell] at h
    split at h
    · split at h <;> simp_all
      rcases h with h | h | h <;> simp_all
    · split at h
      · split at h <;> simp_all
        rcases h with h | h <;> simp_all
      · rcases List.mem_cons.1 h with h | h
        · exact .inr (by simp [h])
        · exact (ih h).imp id (by simp_all)

/-- A cell write reads back under its own key, and leaves every other key alone (R51). -/
theorem cellAt_putCell {m : Memory} (hm : m.wf = true) (n k : Nat) (b : Byte) :
    cellAt (putCell m n b) k = if k = n then b else cellAt m k := by
  induction m with
  | nil =>
    by_cases hb : b = unwrittenByte <;> by_cases hk : k = n
    · simp [putCell, cellAt, hb, hk]
    · simp [putCell, cellAt, hb, hk]
    · simp [putCell, cellAt, hb, hk]
    · simp [putCell, cellAt, hb, hk, Ne.symm hk]
  | cons d m ih =>
    obtain ⟨-, -, hlt, hwf⟩ := wf_cons.1 hm
    have below : ∀ j, j ≤ d.1 → cellAt m j = unwrittenByte := fun j hj =>
      cellAt_of_lt fun c hc => Nat.lt_of_le_of_lt hj (hlt c hc)
    simp only [putCell]
    split
    · by_cases hb : b = unwrittenByte <;> by_cases hk : k = n
      · have hd : d.1 ≠ n := by omega
        simp [hb, hk, cellAt, hd, below n (by omega)]
      · simp [hb, hk]
      · simp [hb, hk, cellAt]
      · simp [hb, hk, cellAt, Ne.symm hk]
    · split
      · rename_i hn
        by_cases hb : b = unwrittenByte <;> by_cases hk : k = n
        · simp [hb, hk, below n (by omega)]
        · have hd : d.1 ≠ k := by omega
          simp [hb, hk, cellAt, hd]
        · simp [hb, hk, cellAt]
        · have hd : d.1 ≠ k := by omega
          simp [hb, hk, cellAt, hd, Ne.symm hk]
      · by_cases hd : d.1 = k
        · have hk : k ≠ n := by omega
          simp [cellAt, hd, hk]
        · simp [cellAt, hd, ih hwf]

/-! ## The canonical form is kept -/

/-- A cell write inside the address space keeps the canonical form. -/
theorem putCell_wf {m : Memory} (hm : m.wf = true) {n : Nat} (hn : n < 65536) (b : Byte) :
    (putCell m n b).wf = true := by
  induction m with
  | nil =>
    by_cases hb : b = unwrittenByte <;> simp [putCell, Memory.wf, hb, hn]
  | cons d m ih =>
    obtain ⟨hk, hv, hlt, hwf⟩ := wf_cons.1 hm
    simp only [putCell]
    split
    · by_cases hb : b = unwrittenByte
      · simpa [hb] using hm
      · simp only [hb, if_false]
        refine wf_cons.2 ⟨hn, hb, ?_, hm⟩
        intro c hc
        rcases List.mem_cons.1 hc with rfl | hc
        · assumption
        · exact Nat.lt_trans ‹_› (hlt c hc)
    · split
      · by_cases hb : b = unwrittenByte
        · simpa [hb] using hwf
        · simp only [hb, if_false]
          exact wf_cons.2 ⟨hn, hb, fun c hc => by have := hlt c hc; omega, hwf⟩
      · refine wf_cons.2 ⟨hk, hv, ?_, ih hwf⟩
        intro c hc
        rcases mem_putCell hc with h | h
        · omega
        · exact hlt c h

/-- `MemWrite(addr, 1, v)` keeps the canonical form. -/
theorem memWrite_wf {m : Memory} (hm : m.wf = true) (addr : Word) (v : Byte) : (memWrite m addr v).wf = true :=
  putCell_wf hm addr.isLt v

/-- `MemWrite(addr, 2, v)` keeps the canonical form. -/
theorem memWrite16_wf {m : Memory} (hm : m.wf = true) (addr v : Word) : (memWrite16 m addr v).wf = true :=
  memWrite_wf (memWrite_wf hm addr _) _ _

/-- Placing bytes keeps the canonical form. -/
theorem placeBytes_wf {m : Memory} (hm : m.wf = true) (addr : Word) (bs : List Byte) :
    (placeBytes m addr bs).wf = true := by
  induction bs generalizing m addr with
  | nil => exact hm
  | cons b bs ih => exact ih (memWrite_wf hm addr b) (addr + 1#16)

/-- What `load` does to memory keeps the canonical form. -/
theorem loadedMemory_wf {m : Memory} (hm : m.wf = true) (c : Config) (image : List Byte) :
    (loadedMemory c m image).wf = true :=
  memWrite16_wf (placeBytes_wf hm _ _) _ _

/-- Memory after reset is in its canonical form. -/
theorem reset_mem_wf : State.reset.mem.wf = true := rfl

end Sys2Proof.Machine
end

