-- ==== Sys2Proof/Laws/PerInstr.lean ====
section
/-! SUPPORT. Statements made for every instruction, one lemma a constructor. -/

namespace Sys2Proof.Laws

namespace EncodedLength

/-- An instruction is its opcode byte and as many trailing bytes as its mode says (R68, R73). -/
def Statement (i : Instr) : Prop := (encode i).length = 1 + modeLength (modeOf i)

theorem halt : Statement .halt := rfl
theorem adcIndirectX (n : Byte) : Statement (.adcIndirectX n) := rfl
theorem adcZeroPage (n : Byte) : Statement (.adcZeroPage n) := rfl
theorem adcImmediate (n : Byte) : Statement (.adcImmediate n) := rfl
theorem adcAbsolute (w : Word) : Statement (.adcAbsolute w) := rfl
theorem adcIndirectY (n : Byte) : Statement (.adcIndirectY n) := rfl
theorem adcZeroPageX (n : Byte) : Statement (.adcZeroPageX n) := rfl
theorem adcAbsoluteY (w : Word) : Statement (.adcAbsoluteY w) := rfl
theorem adcAbsoluteX (w : Word) : Statement (.adcAbsoluteX w) := rfl
theorem ldaIndirectX (n : Byte) : Statement (.ldaIndirectX n) := rfl
theorem ldaZeroPage (n : Byte) : Statement (.ldaZeroPage n) := rfl
theorem ldaImmediate (n : Byte) : Statement (.ldaImmediate n) := rfl
theorem ldaAbsolute (w : Word) : Statement (.ldaAbsolute w) := rfl
theorem ldaIndirectY (n : Byte) : Statement (.ldaIndirectY n) := rfl
theorem ldaZeroPageX (n : Byte) : Statement (.ldaZeroPageX n) := rfl
theorem ldaAbsoluteY (w : Word) : Statement (.ldaAbsoluteY w) := rfl
theorem ldaAbsoluteX (w : Word) : Statement (.ldaAbsoluteX w) := rfl

end EncodedLength

end Sys2Proof.Laws
end

