-- ==== Sys2Proof/Tests/Slice0.lean ====
section
/-! SUPPORT. The model's own tests. Expected results are the vectors of 95_test_vectors.md (their ids beside each
test), which that file derives from the rules or quotes from the source; the words of the decode tests are written
bit by bit from 30_encoding.md R69 and R78. After them, a witness for the hypotheses of each statement. -/

namespace Sys2Proof.Tests

open Sys2Proof.Machine

/-! ## Well-formedness: an ill-formed term for each check (R74, R77) -/

theorem test_wf_refuses_two_rows_for_one_opcode :
    uniqueOpcodes [⟨0xA9, .lda, .immediate, 1⟩, ⟨0xA9, .adc, .immediate, 1⟩] = false := by decide

theorem test_wf_refuses_wrong_length : lengthsMatchModes [⟨0xAD, .lda, .absolute, 1⟩] = false := by decide

/-- E3: a table with an LDA row in mode None is refused when it is given. -/
theorem test_wf_refuses_lda_none : noneExactlyHalt [⟨0xA9, .lda, .none, 0⟩] = false := by decide

theorem test_wf_refuses_halt_with_mode : noneExactlyHalt [⟨0x02, .halt, .immediate, 1⟩] = false := by decide

theorem test_wf_refuses_lda_at_zero : zeroIsHalt [⟨0x00, .lda, .immediate, 1⟩] = false := by decide

theorem test_wf_refuses_row_outside_standard17 : rowsOfStandard17 [⟨0xB6, .lda, .zeroPageY, 1⟩] = false := by decide

/-- DC4: ADC is no instruction of the profile `shown`. -/
theorem test_wf_refuses_adc_under_shown : instrWellFormed shown (.adcImmediate 0x50) = false := by decide

theorem test_construct_refuses_ill_formed_table :
    construct { Config.default with instrTable := [⟨0xA9, .lda, .none, 0⟩] } = .refused .tableIllFormed := by rfl

/-! ## Decoding, one word a constructor (R69, R78): first byte in the low bits -/

theorem test_decode_halt : decodeTableWord 8 0b00000000 = some .halt := by decide
theorem test_decode_adcIndirectX : decodeTableWord 16 0b11111111_01100001 = some (.adcIndirectX 0xFF) := by decide
theorem test_decode_adcZeroPage : decodeTableWord 16 0b01000000_01100101 = some (.adcZeroPage 0x40) := by decide
theorem test_decode_adcImmediate : decodeTableWord 16 0b01010000_01101001 = some (.adcImmediate 0x50) := by decide
theorem test_decode_adcAbsolute :
    decodeTableWord 24 0b00000010_00000000_01101101 = some (.adcAbsolute 0x0200) := by decide
theorem test_decode_adcIndirectY : decodeTableWord 16 0b00010000_01110001 = some (.adcIndirectY 0x10) := by decide
theorem test_decode_adcZeroPageX : decodeTableWord 16 0b11111111_01110101 = some (.adcZeroPageX 0xFF) := by decide
theorem test_decode_adcAbsoluteY :
    decodeTableWord 24 0b01000000_00000000_01111001 = some (.adcAbsoluteY 0x4000) := by decide
theorem test_decode_adcAbsoluteX :
    decodeTableWord 24 0b00010010_11111111_01111101 = some (.adcAbsoluteX 0x12FF) := by decide
theorem test_decode_ldaIndirectX : decodeTableWord 16 0b00100000_10100001 = some (.ldaIndirectX 0x20) := by decide
theorem test_decode_ldaZeroPage : decodeTableWord 16 0b00010000_10100101 = some (.ldaZeroPage 0x10) := by decide
theorem test_decode_ldaImmediate : decodeTableWord 16 0b00000101_10101001 = some (.ldaImmediate 0x05) := by decide
theorem test_decode_ldaAbsolute :
    decodeTableWord 24 0b00010010_00110100_10101101 = some (.ldaAbsolute 0x1234) := by decide
theorem test_decode_ldaIndirectY : decodeTableWord 16 0b10000110_10110001 = some (.ldaIndirectY 0x86) := by decide
theorem test_decode_ldaZeroPageX : decodeTableWord 16 0b11111111_10110101 = some (.ldaZeroPageX 0xFF) := by decide
theorem test_decode_ldaAbsoluteY :
    decodeTableWord 24 0b11111111_11111111_10111001 = some (.ldaAbsoluteY 0xFFFF) := by decide
theorem test_decode_ldaAbsoluteX :
    decodeTableWord 24 0b00010010_11111111_10111101 = some (.ldaAbsoluteX 0x12FF) := by decide

/-- An operand word with no bits in the table reads as zeros. -/
theorem test_decode_short_word : decodeTableWord 8 0xAD = some (.ldaAbsolute 0x0000) := by decide

/-- DC6 to DC9, and DC3 under `shown`. -/
theorem test_decode_illegal :
    decode standard17 [0xEA] = .illegalOpcode 0xEA ∧ decode standard17 [0x6A, 0, 0] = .illegalOpcode 0x6A ∧
    decode standard17 [0xFF] = .illegalOpcode 0xFF ∧ decode standard17 [0xB6, 0x10] = .illegalOpcode 0xB6 ∧
    decode shown [0xAD, 0, 0] = .illegalOpcode 0xAD ∧ decode standard17 [0xAD, 0x34] = .truncated 0xAD ∧
    decode standard17 [] = .empty := by decide

/-! ## Memory, flags, resolver -/

/-- M1 to M4. -/
theorem test_reads :
    memRead16 [(0x1234, 0xCD), (0x1235, 0xAB)] 0x1234 = 0xABCD ∧
    memRead16 [(0x0000, 0x12), (0xFFFF, 0x34)] 0xFFFF = 0x1234 ∧
    zpRead16 [(0x0000, 0x12), (0x00FF, 0x34), (0x0100, 0x56)] 0xFF = 0x1234 ∧
    memRead16 [(0x0000, 0x12), (0x00FF, 0x34), (0x0100, 0x56)] 0x00FF = 0x5634 := by decide

/-- M5 and M6; writing the unwritten byte takes the cell away. -/
theorem test_writes :
    memWrite16 [] 0xFFFF 0xBEEF = [(0x0000, 0xBE), (0xFFFF, 0xEF)] ∧
    memRead (memWrite16 [] 0x8000 0x1234) 0x8000 = 0x34 ∧
    memWrite [(0x0010, 0x07), (0x0020, 0x08)] 0x0010 0x00 = [(0x0020, 0x08)] := by decide

/-- FU1 to FU6. -/
theorem test_flag_updater :
    updateZeroNegative 0x24 0x00 = 0x26 ∧ updateZeroNegative 0x24 0x7F = 0x24 ∧
    updateZeroNegative 0x24 0x80 = 0xA4 ∧ updateZeroNegative 0x24 0xFF = 0xA4 ∧
    updateZeroNegative 0xE7 0x01 = 0x65 ∧ updateZeroNegative 0x41 0x00 = 0x43 := by decide

/-- A, M, P in, A', P' of AD1 to AD22. -/
def adcVectors : List (Byte × Byte × Byte × Byte × Byte) :=
  [(0x00, 0x00, 0x24, 0x00, 0x26), (0x00, 0x00, 0x25, 0x01, 0x24), (0x01, 0x01, 0x24, 0x02, 0x24),
   (0x50, 0x50, 0x24, 0xA0, 0xE4), (0x50, 0x10, 0x24, 0x60, 0x24), (0x7F, 0x01, 0x24, 0x80, 0xE4),
   (0x7F, 0x00, 0x25, 0x80, 0xE4), (0x7F, 0x7F, 0x25, 0xFF, 0xE4), (0x80, 0x80, 0x24, 0x00, 0x67),
   (0x80, 0xFF, 0x24, 0x7F, 0x65), (0x80, 0xFF, 0x25, 0x80, 0xA5)] ++
  [(0xFF, 0x01, 0x24, 0x00, 0x27), (0xFF, 0x00, 0x25, 0x00, 0x27), (0xFF, 0xFF, 0x24, 0xFE, 0xA5),
   (0xFF, 0xFF, 0x25, 0xFF, 0xA5), (0xD0, 0x90, 0x24, 0x60, 0x65), (0xD0, 0xD0, 0x24, 0xA0, 0xA5),
   (0x50, 0xD0, 0x24, 0x20, 0x25), (0x01, 0xFF, 0x24, 0x00, 0x27), (0xFE, 0x01, 0x25, 0x00, 0x27),
   (0x40, 0x40, 0x24, 0x80, 0xE4), (0xC0, 0x40, 0x25, 0x01, 0x25)]

theorem test_adc_vectors :
    adcVectors.all (fun (a, m, p, a', p') =>
      adcResult a m (getC p) == a' && adcStatus p a m == p') = true := by decide

/-- A state in a run with bytes placed at `addr`, PC there, registers as after reset. -/
def stateAt (addr : Word) (bs : List Byte) (others : Memory) : State :=
  { State.reset with pc := some addr, mem := placeBytes others addr bs, runState := .fetching }

/-- A, P and PC of a next state. -/
def seen : Host.Outcome State Fault Refusal → Option (Byte × Byte × Option Word)
  | .next t => some (t.a, t.p, t.pc)
  | .fault _ => none
  | .refused _ => none

/-- RS4, RS7, RS9, RS10, RS12 and RS14: the modes the opcode tests below leave at another corner. -/
theorem test_resolver :
    resolve .zeroPageY 0x0300 { stateAt 0x0300 [0x80] [] with y := 0x90 } = some 0x0010 ∧
    resolve .absoluteY 0x0300 { stateAt 0x0300 [0x00, 0x80] [] with y := 0xFF } = some 0x80FF ∧
    resolve .indirectX 0x0300 { stateAt 0x0300 [0x20] [(0, 0xCD), (1, 0xAB)] with x := 0xE0 } = some 0xABCD ∧
    resolve .indirectY 0x0300 (stateAt 0x0300 [0xFF] [(0, 0x12), (0xFF, 0x34), (0x100, 0x56)]) = some 0x1234 ∧
    resolve .indirectY 0x0300 { stateAt 0x0300 [0x40] [(0x40, 0xFF), (0x41, 0xFF)] with y := 1 } = some 0x0000 ∧
    resolve .none 0x0300 (stateAt 0x0300 [] []) = none := by decide

/-! ## One step of each instruction -/

/-- LD4: C and V kept, Z cleared, N set. -/
theorem test_lda_immediate :
    seen (step { stateAt 0x8000 [0xA9, 0xFF] [] with a := 0x55, p := 0x67 }) =
      some (0xFF, 0xE5, some 0x8002) := by decide
/-- LD5. -/
theorem test_lda_zeroPage :
    seen (step (stateAt 0x8000 [0xA5, 0x10] [(0x0010, 0x01)])) = some (0x01, 0x24, some 0x8002) := by decide
/-- LD6, with a byte at 0x0101 that a wider sum would read. -/
theorem test_lda_zeroPageX :
    seen (step { stateAt 0x8000 [0xB5, 0xFF] [(0x0101, 0x77)] with x := 0x02, a := 0x55 }) =
      some (0x00, 0x26, some 0x8002) := by decide
/-- LD12: it reads its own opcode byte. -/
theorem test_lda_absolute :
    seen (step (stateAt 0x8000 [0xAD, 0x00, 0x80] [])) = some (0xAD, 0xA4, some 0x8003) := by decide
/-- HT4, first step: an instruction across the top of memory. -/
theorem test_lda_absolute_at_top :
    seen (step (stateAt 0xFFFE [0xAD, 0x02, 0x00] [(0x0002, 0x99)])) = some (0x99, 0xA4, some 0x0001) := by decide
/-- The example of R107. -/
theorem test_lda_absoluteX :
    seen (step { stateAt 0x8000 [0xBD, 0xFF, 0x12] [(0x1300, 0xFF)] with x := 0x01 }) =
      some (0xFF, 0xA4, some 0x8003) := by decide
/-- LD9. -/
theorem test_lda_absoluteY :
    seen (step { stateAt 0x8000 [0xB9, 0xFF, 0xFF] [(0x0001, 0x42)] with y := 0x02 }) =
      some (0x42, 0x24, some 0x8003) := by decide
/-- LD10. -/
theorem test_lda_indirectX :
    seen (step { stateAt 0x8000 [0xA1, 0xFE] [(0x0000, 0x30), (0x3000, 0x81)] with x := 0x01 }) =
      some (0x81, 0xA4, some 0x8002) := by decide
/-- LD11. -/
theorem test_lda_indirectY :
    seen (step { stateAt 0x8000 [0xB1, 0x86] [(0x0086, 0xF8), (0x0087, 0x12), (0x1308, 0x01)] with y := 0x10 }) =
      some (0x01, 0x24, some 0x8002) := by decide

/-- AM1. -/
theorem test_adc_immediate :
    seen (step { stateAt 0x8000 [0x69, 0x50] [] with a := 0x50 }) = some (0xA0, 0xE4, some 0x8002) := by decide
/-- AM2. -/
theorem test_adc_zeroPage :
    seen (step { stateAt 0x8000 [0x65, 0x40] [(0x0040, 0x01)] with a := 0x01, p := 0x25 }) =
      some (0x03, 0x24, some 0x8002) := by decide
/-- AM3. -/
theorem test_adc_zeroPageX :
    seen (step { stateAt 0x8000 [0x75, 0xFF] [(0x0001, 0x80)] with a := 0x80, x := 0x02 }) =
      some (0x00, 0x67, some 0x8002) := by decide
/-- AM4. -/
theorem test_adc_absolute :
    seen (step { stateAt 0x8000 [0x6D, 0x00, 0x02] [(0x0200, 0x01)] with a := 0x7F }) =
      some (0x80, 0xE4, some 0x8003) := by decide
/-- AM5. -/
theorem test_adc_absoluteX :
    seen (step { stateAt 0x8000 [0x7D, 0xFF, 0x12] [(0x1300, 0xFF)] with a := 0xFF, x := 0x01, p := 0x25 }) =
      some (0xFF, 0xA5, some 0x8003) := by decide
/-- AM6. -/
theorem test_adc_absoluteY :
    seen (step { stateAt 0x8000 [0x79, 0x00, 0x40] [(0x4000, 0xFF)] with a := 0x80, p := 0x25 }) =
      some (0x80, 0xA5, some 0x8003) := by decide
/-- AM7. -/
theorem test_adc_indirectX :
    seen (step { stateAt 0x8000 [0x61, 0xFF] [(0x0000, 0x02), (0x0200, 0x10)] with a := 0x20 }) =
      some (0x30, 0x24, some 0x8002) := by decide
/-- AM8. -/
theorem test_adc_indirectY :
    seen (step { stateAt 0x8000 [0x71, 0x10] [(0x0000, 0x05), (0x0010, 0xFF), (0x0011, 0xFF)] with
                 a := 0x03, y := 0x01 }) = some (0x08, 0x24, some 0x8002) := by decide

/-- HT2: HALT at the top of memory. -/
theorem test_halt_at_top :
    step { stateAt 0xFFFF [0x00] [] with a := 0x5A, p := 0xC3 } =
      .next { stateAt 0xFFFF [0x00] [] with a := 0x5A, p := 0xC3, pc := some 0x0000, runState := .halted } := by rfl

/-- E1: an illegal opcode leaves everything as it was, Faulted with its record; and the next step answers it. -/
theorem test_illegal_opcode :
    step (stateAt 0x8002 [0xEA] []) = .next (raise (.illegalOpcode 0xEA 0x8002) (stateAt 0x8002 [0xEA] [])) ∧
    step (raise (.illegalOpcode 0xEA 0x8002) (stateAt 0x8002 [0xEA] [])) = .fault (.illegalOpcode 0xEA 0x8002) :=
  ⟨by rfl, by rfl⟩

/-- E3: an LDA row in mode None, admitted all the same, raises UnsupportedAddressingMode. -/
theorem test_unsupported_mode :
    stepWith [⟨0xA9, .lda, .none, 0⟩] (stateAt 0x8000 [0xA9] []) =
      .next (raise (.unsupportedAddressingMode 0xA9 0x8000 .none) (stateAt 0x8000 [0xA9] [])) := by rfl

/-- E5: under `shown` 0x69 faults. -/
theorem test_shown_adc_faults :
    stepWith shown (stateAt 0x8000 [0x69, 0x01] []) =
      .next (raise (.illegalOpcode 0x69 0x8000) (stateAt 0x8000 [0x69, 0x01] [])) := by rfl

/-- A table row outside `standard17`: LDA ZeroPageY (R86), run by the literal execute phase. -/
theorem test_zeroPageY_row :
    seen (stepWith [⟨0xB6, .lda, .zeroPageY, 1⟩] { stateAt 0x8000 [0xB6, 0xFF] [(0x0001, 0x42)] with y := 0x02 }) =
      some (0x42, 0x24, some 0x8002) := by decide

/-- A word placed after reset is run by the very next step. -/
theorem test_withFetchWord :
    seen (step (State.reset.withFetchWord 16 0x80A9)) = some (0x80, 0xA4, some 0x0002) := by decide

/-! ## Host operations -/

/-- H1 and H2: load, then reset. -/
theorem test_load_then_reset :
    load Config.default [0xA9, 0x05, 0x00] State.powerOn =
      .next { State.powerOn with mem := [(0x8000, 0xA9), (0x8001, 0x05), (0xFFFD, 0x80)] } ∧
    resetOp Config.default { State.powerOn with mem := [(0x8000, 0xA9), (0x8001, 0x05), (0xFFFD, 0x80)] } =
      .next { State.reset with mem := [(0x8000, 0xA9), (0x8001, 0x05), (0xFFFD, 0x80)], pc := some 0x8000 } :=
  ⟨by rfl, by rfl⟩

/-- H4: reset with no load, then a run halts at once. -/
theorem test_reset_without_load :
    resetOp Config.default State.powerOn = .next State.reset ∧
    run Config.default 1 State.reset = .next { State.reset with pc := some 0x0001, runState := .halted } :=
  ⟨by rfl, by rfl⟩

/-- H5: the empty image. -/
theorem test_load_and_run_empty :
    loadAndRun Config.default [] 1 State.powerOn =
      .next { State.reset with mem := [(0xFFFD, 0x80)], pc := some 0x8001, runState := .halted } := by rfl

/-- E2: run before reset. -/
theorem test_run_before_reset :
    run Config.default 9 State.powerOn = .next (raise .pcUndefined State.powerOn) := by rfl

/-- E4: reset of a faulted instance is refused with its fault. -/
theorem test_reset_of_faulted :
    resetOp Config.default (raise (.illegalOpcode 0xEA 0x8002) State.reset) = .fault (.illegalOpcode 0xEA 0x8002) := by
  rfl

/-- H6: an image of one byte more than fits. -/
theorem test_load_too_long :
    load { Config.default with programLoadAddr := 0xFFFF } [0x01, 0x02] State.powerOn =
      .refused (.imageTooLong 2) := by rfl

/-- D10: an image that covers the reset vector; the vector write wins, and R150: a byte past the image stays. -/
theorem test_load_over_vector :
    load { Config.default with programLoadAddr := 0xFFFA } [0xA9, 0x05, 0x11, 0x22, 0x33]
        { State.powerOn with mem := [(0xFFFF, 0x42)] } =
      .next { State.powerOn with
        mem := [(0xFFFA, 0xA9), (0xFFFB, 0x05), (0xFFFC, 0xFA), (0xFFFD, 0xFF), (0xFFFE, 0x33), (0xFFFF, 0x42)] } := by
  rfl

/-- A budget used up is not an end. -/
theorem test_budget : run Config.default 0 State.reset = .refused .budgetExhausted := by rfl

/-! ## Witnesses: states and operands that meet the hypotheses of each statement, at a boundary where there is one -/

open Sys2Proof.Claims

/-- The hypotheses of `Encoded` for some bytes at the top of memory, the rest of them wrapping to 0x0000. -/
def EncodedPremises (bs : List Byte) : Prop :=
  (stateAt 0xFFFF bs []).runState = .fetching ∧ (stateAt 0xFFFF bs []).pc = some 0xFFFF ∧
    BytesAt (stateAt 0xFFFF bs []) 0xFFFF bs

theorem witness_HaltEndsTheRun : EncodedPremises [0x00] := ⟨rfl, rfl, by unfold BytesAt; decide⟩
theorem witness_AdcIndirectXAdds : EncodedPremises [0x61, 0xFF] := ⟨rfl, rfl, by unfold BytesAt; decide⟩
theorem witness_AdcZeroPageAdds : EncodedPremises [0x65, 0xFF] := ⟨rfl, rfl, by unfold BytesAt; decide⟩
theorem witness_AdcImmediateAdds : EncodedPremises [0x69, 0xFF] := ⟨rfl, rfl, by unfold BytesAt; decide⟩
theorem witness_AdcAbsoluteAdds : EncodedPremises [0x6D, 0xFE, 0x80] := ⟨rfl, rfl, by unfold BytesAt; decide⟩
theorem witness_AdcIndirectYAdds : EncodedPremises [0x71, 0xFF] := ⟨rfl, rfl, by unfold BytesAt; decide⟩
theorem witness_AdcZeroPageXAdds : EncodedPremises [0x75, 0xFF] := ⟨rfl, rfl, by unfold BytesAt; decide⟩
theorem witness_AdcAbsoluteYAdds : EncodedPremises [0x79, 0xFE, 0x80] := ⟨rfl, rfl, by unfold BytesAt; decide⟩
theorem witness_AdcAbsoluteXAdds : EncodedPremises [0x7D, 0xFE, 0x80] := ⟨rfl, rfl, by unfold BytesAt; decide⟩
theorem witness_LdaIndirectXLoads : EncodedPremises [0xA1, 0xFF] := ⟨rfl, rfl, by unfold BytesAt; decide⟩
theorem witness_LdaZeroPageLoads : EncodedPremises [0xA5, 0xFF] := ⟨rfl, rfl, by unfold BytesAt; decide⟩
theorem witness_LdaImmediateLoadsItsByte : EncodedPremises [0xA9, 0xFF] := ⟨rfl, rfl, by unfold BytesAt; decide⟩
theorem witness_LdaAbsoluteLoads : EncodedPremises [0xAD, 0xFE, 0x80] := ⟨rfl, rfl, by unfold BytesAt; decide⟩
theorem witness_LdaIndirectYLoads : EncodedPremises [0xB1, 0xFF] := ⟨rfl, rfl, by unfold BytesAt; decide⟩
theorem witness_LdaZeroPageXLoads : EncodedPremises [0xB5, 0xFF] := ⟨rfl, rfl, by unfold BytesAt; decide⟩
theorem witness_LdaAbsoluteYLoads : EncodedPremises [0xB9, 0xFE, 0x80] := ⟨rfl, rfl, by unfold BytesAt; decide⟩
theorem witness_LdaAbsoluteXLoads : EncodedPremises [0xBD, 0xFE, 0x80] := ⟨rfl, rfl, by unfold BytesAt; decide⟩

/-- HALT's second clause on a step, at 0xFFFF. -/
theorem witness_HaltEndsTheRun_step :
    (stateAt 0xFFFF [0x00] []).runState = .fetching ∧ (stateAt 0xFFFF [0x00] []).pc = some 0xFFFF ∧
    memRead (stateAt 0xFFFF [0x00] []).mem 0xFFFF = 0x00 := by decide

/-- A table with an LDA row and an ADC row in mode None, and a state that fetches `op`. -/
def noneTable : InstrTable := [⟨0xA9, .lda, .none, 0⟩, ⟨0x69, .adc, .none, 0⟩]

theorem witness_LdaEntryOfAnyMode_resolves :
    (stateAt 0xFFFF [0xA5, 0x10] []).runState = .fetching ∧ (stateAt 0xFFFF [0xA5, 0x10] []).pc = some 0xFFFF ∧
    lookup standard17 (memRead (stateAt 0xFFFF [0xA5, 0x10] []).mem 0xFFFF) = some ⟨0xA5, .lda, .zeroPage, 1⟩ ∧
    resolve .zeroPage (0xFFFF + 1#16) (stateAt 0xFFFF [0xA5, 0x10] []) = some 0x0010 := by decide

theorem witness_LdaEntryOfAnyMode_none :
    (stateAt 0xFFFF [0xA9] []).runState = .fetching ∧ (stateAt 0xFFFF [0xA9] []).pc = some 0xFFFF ∧
    lookup noneTable (memRead (stateAt 0xFFFF [0xA9] []).mem 0xFFFF) = some ⟨0xA9, .lda, .none, 0⟩ ∧
    resolve .none (0xFFFF + 1#16) (stateAt 0xFFFF [0xA9] []) = none := by decide

theorem witness_AdcEntryOfAnyMode_resolves :
    (stateAt 0xFFFF [0x65, 0x10] []).runState = .fetching ∧ (stateAt 0xFFFF [0x65, 0x10] []).pc = some 0xFFFF ∧
    lookup standard17 (memRead (stateAt 0xFFFF [0x65, 0x10] []).mem 0xFFFF) = some ⟨0x65, .adc, .zeroPage, 1⟩ ∧
    resolve .zeroPage (0xFFFF + 1#16) (stateAt 0xFFFF [0x65, 0x10] []) = some 0x0010 := by decide

theorem witness_AdcEntryOfAnyMode_none :
    (stateAt 0xFFFF [0x69] []).runState = .fetching ∧ (stateAt 0xFFFF [0x69] []).pc = some 0xFFFF ∧
    lookup noneTable (memRead (stateAt 0xFFFF [0x69] []).mem 0xFFFF) = some ⟨0x69, .adc, .none, 0⟩ ∧
    resolve .none (0xFFFF + 1#16) (stateAt 0xFFFF [0x69] []) = none := by decide

theorem witness_AdcUnsignedAndSignedReadings : getV (addWithCarry 0x01 State.reset).p = false := by decide

theorem witness_SixteenBitReads : (0xFE : Byte) ≠ 0xFF := by decide

theorem witness_WritesPutTheirBytesOnly :
    Memory.wf [(0x0000, 0x12), (0xFFFF, 0x34)] = true ∧ (0x0001 : Word) ≠ 0xFFFF ∧
    (0x0001 : Word) ≠ BitVec.ofNat 16 ((0xFFFF : Word).toNat + 1) := by decide

theorem witness_DecodeOfEncode : instrWellFormed shown (.ldaImmediate 0xFF) = true := by decide

theorem witness_EncodeOfDecode :
    rowsOfStandard17 shown = true ∧ decode shown [0xA9, 0xFF, 0x00] = .instr (.ldaImmediate 0xFF) [0x00] := by decide

/-- Both ends of the listed ranges. -/
theorem witness_IllegalBytesAreTheListedOnes :
    (stateAt 0xFFFF [0x01] []).runState = .fetching ∧ (stateAt 0xFFFF [0x01] []).pc = some 0xFFFF ∧
    ListedIllegal (memRead (stateAt 0xFFFF [0x01] []).mem 0xFFFF) ∧
    ListedIllegal (memRead (stateAt 0xFFFF [0xFF] []).mem 0xFFFF) ∧ ¬ ListedIllegal 0x00 ∧ ¬ ListedIllegal 0xBD :=
  ⟨rfl, rfl, by decide, by decide, by decide, by decide⟩

theorem witness_StepRunsDecodedInstruction :
    (stateAt 0xFFFE [0xAD, 0x02, 0x00] []).runState = .fetching ∧
    (stateAt 0xFFFE [0xAD, 0x02, 0x00] []).pc = some 0xFFFE ∧
    decode standard17 [byteAt (stateAt 0xFFFE [0xAD, 0x02, 0x00] []) 0xFFFE,
      byteAt (stateAt 0xFFFE [0xAD, 0x02, 0x00] []) 0xFFFF, byteAt (stateAt 0xFFFE [0xAD, 0x02, 0x00] []) 0x10000] =
        .instr (.ldaAbsolute 0x0002) [] := by decide

theorem witness_FetchSeesWrittenBytes :
    (stateAt 0xFFFF [] []).mem.wf = true ∧ (stateAt 0xFFFF [] []).runState = .fetching ∧
    (stateAt 0xFFFF [] []).pc = some 0xFFFF := by decide

theorem witness_RestrictedTables_lacking :
    tableWellFormed shown = true ∧ rowsOfStandard17 shown = true ∧ (stateAt 0x8000 [0x69] []).runState = .fetching ∧
    (stateAt 0x8000 [0x69] []).pc = some 0x8000 ∧ lookup shown (memRead (stateAt 0x8000 [0x69] []).mem 0x8000) = none := by
  decide

theorem witness_RestrictedTables_held : lookup shown (memRead (stateAt 0x8000 [0xA9] []).mem 0x8000) ≠ none := by decide

theorem witness_IllegalOpcodeRecordsByteAndAddress :
    (stateAt 0xFFFF [0xEA] []).runState = .fetching ∧ (stateAt 0xFFFF [0xEA] []).pc = some 0xFFFF ∧
    lookup standard17 (memRead (stateAt 0xFFFF [0xEA] []).mem 0xFFFF) = none := by decide

theorem witness_UnsupportedModeOnlyFromNoneEntries_raised :
    (stateAt 0xFFFF [0xA9] []).runState = .fetching ∧ (stateAt 0xFFFF [0xA9] []).pc = some 0xFFFF ∧
    lookup noneTable (memRead (stateAt 0xFFFF [0xA9] []).mem 0xFFFF) = some ⟨0xA9, .lda, .none, 0⟩ ∧
    (Operation.lda ≠ .halt) := by decide

/-- A step that raises it, under an ill-formed table. -/
theorem witness_UnsupportedModeOnlyFromNoneEntries_from :
    (stateAt 0xFFFF [0xA9] []).fault = none ∧
    stepWith noneTable (stateAt 0xFFFF [0xA9] []) =
      .next (raise (.unsupportedAddressingMode 0xA9 0xFFFF .none) (stateAt 0xFFFF [0xA9] [])) ∧
    (raise (.unsupportedAddressingMode 0xA9 0xFFFF .none) (stateAt 0xFFFF [0xA9] [])).fault =
      some (.unsupportedAddressingMode 0xA9 0xFFFF .none) := ⟨rfl, rfl, rfl⟩

theorem witness_UnsupportedModeOnlyFromNoneEntries_never :
    tableWellFormed standard17 = true ∧ (stateAt 0xFFFF [0xEA] []).fault = none ∧
    stepWith standard17 (stateAt 0xFFFF [0xEA] []) =
      .next (raise (.illegalOpcode 0xEA 0xFFFF) (stateAt 0xFFFF [0xEA] [])) := ⟨by decide, rfl, rfl⟩

theorem witness_ErrorsDiscardTheStep :
    stepWith noneTable (stateAt 0x8000 [0xA9] []) =
      .next (raise (.unsupportedAddressingMode 0xA9 0x8000 .none) (stateAt 0x8000 [0xA9] [])) ∧
    (raise (.unsupportedAddressingMode 0xA9 0x8000 .none) (stateAt 0x8000 [0xA9] [])).runState = .faulted := ⟨rfl, rfl⟩

theorem witness_NoStepWritesMemoryOrIndexes : ∃ t, stepWith standard17 (stateAt 0xFFFF [0x69, 0xFF] []) = .next t :=
  ⟨_, rfl⟩

/-- One state for each of the three ways a step ends. -/
theorem witness_ControlMovesForwardOnly :
    (stateAt 0xFFFF [0xA9, 0xFF] []).pc = some 0xFFFF ∧
    (∃ t, step (stateAt 0xFFFF [0xA9, 0xFF] []) = .next t ∧ t.runState = .fetching) ∧
    (∃ t, step (stateAt 0xFFFF [0x00] []) = .next t ∧ t.runState = .halted) ∧
    (∃ t, step (stateAt 0xFFFF [0x01] []) = .next t ∧ t.runState = .faulted) :=
  ⟨rfl, ⟨_, rfl, rfl⟩, ⟨_, rfl, rfl⟩, ⟨_, rfl, rfl⟩⟩

theorem witness_NoStepOutsideFetching :
    State.reset.runState ≠ .fetching ∧ State.reset.runState ≠ .faulted ∧
    (raise .pcUndefined State.powerOn).runState = .faulted ∧
    (raise .pcUndefined State.powerOn).fault = some .pcUndefined := by decide

theorem witness_StepKeepsInv :
    (stateAt 0xFFFF [0x69, 0xFF] []).Inv ∧ ∃ t, step (stateAt 0xFFFF [0x69, 0xFF] []) = .next t :=
  ⟨by decide, _, rfl⟩

/-- A reachable state in the middle of a run: constructed, reset, run started (HostReachableStatesHaveInv,
HostReachableStatesIndexByZero). -/
theorem witness_HostReachable :
    HostReachable Config.default { State.reset with runState := .fetching } :=
  .runStarted (.resetDone (.constructed (s := State.powerOn) (by rfl)) (t := State.reset) (by rfl)) (by rfl)

theorem witness_ConstructGivesPowerOnState :
    Config.default.wellFormed = true ∧ ({ Config.default with instrTable := noneTable }).wellFormed = false := by decide

theorem witness_ResetRestoresRegisters :
    Stopped { stateAt 0x8000 [0xFF] [] with runState := .halted } ∧ Stopped State.powerOn := ⟨.inr rfl, .inl rfl⟩

/-- A one-byte image that ends at the top of memory, an address inside it and one outside. -/
theorem witness_LoadCopiesImageAndVector :
    Stopped State.powerOn ∧ State.powerOn.mem.wf = true ∧
    [(0xA9 : Byte)].length ≤ 0x10000 - ({ Config.default with programLoadAddr := 0xFFFF }).programLoadAddr.toNat ∧
    (0xFFFF : Word) ≠ 0xFFFC ∧ (0xFFFF : Word) ≠ BitVec.ofNat 16 ((0xFFFC : Word).toNat + 1) ∧
    (0xFFFF : Word).toNat = 0xFFFF + 0 ∧ (0x0000 : Word).toNat < 0xFFFF := ⟨.inl rfl, by decide⟩

/-- An image of five bytes that covers the reset vector, an address inside it beside the vector, and one past its
end that holds a byte of an earlier load. -/
theorem witness_LoadCopiesImageAndVector_overVector :
    let c : Config := { Config.default with programLoadAddr := 0xFFFA }
    let s : State := { State.reset with mem := [(0xFFFF, 0x42)], runState := .halted }
    let image : List Byte := [0xA9, 0x05, 0x11, 0x22, 0x33]
    Stopped s ∧ s.mem.wf = true ∧ image.length ≤ 0x10000 - c.programLoadAddr.toNat ∧
    c.programLoadAddr.toNat + 2 = c.resetVectorAddr.toNat ∧
    (0xFFFE : Word) ≠ c.resetVectorAddr ∧ (0xFFFE : Word) ≠ BitVec.ofNat 16 (c.resetVectorAddr.toNat + 1) ∧
    (0xFFFE : Word).toNat = c.programLoadAddr.toNat + 4 ∧
    (0xFFFF : Word) ≠ c.resetVectorAddr ∧ (0xFFFF : Word) ≠ BitVec.ofNat 16 (c.resetVectorAddr.toNat + 1) ∧
    c.programLoadAddr.toNat + image.length ≤ (0xFFFF : Word).toNat := ⟨.inr rfl, by decide⟩

/-- A load of an Idle instance and one of a Halted instance. -/
theorem witness_LoadKeepsTheInstanceStopped :
    (∃ t, load Config.default [0x00] State.powerOn = .next t) ∧
    ∃ t, load Config.default [0x00] { State.reset with runState := .halted } = .next t :=
  ⟨⟨_, rfl⟩, ⟨_, rfl⟩⟩

/-- Every operation has a state with the invariant and the storage-only values on which it answers a next state. -/
theorem witness_HostOperationsKeep :
    (∃ t, construct Config.default = .next t) ∧
    State.reset.Inv ∧ State.reset.IdleStorage ∧
    (∃ t, load Config.default [0xA9] State.reset = .next t) ∧
    (∃ t, resetOp Config.default State.reset = .next t) ∧
    (∃ t, startRun State.reset = .next t) ∧
    (∃ t, run Config.default 1 State.reset = .next t) ∧
    (∃ t, loadAndRun Config.default [] 1 State.reset = .next t) ∧
    ({ State.reset with runState := .fetching } : State).Inv ∧
    ({ State.reset with runState := .fetching } : State).IdleStorage ∧
    ∃ t, stepWith Config.default.instrTable { State.reset with runState := .fetching } = .next t :=
  ⟨⟨_, rfl⟩, by decide, by decide, ⟨_, rfl⟩, ⟨_, rfl⟩, ⟨_, rfl⟩, ⟨_, rfl⟩, ⟨_, rfl⟩, by decide, by decide, ⟨_, rfl⟩⟩

theorem witness_LoadRefusesLongImages :
    Stopped State.powerOn ∧ 0x10000 - (0xFFFF : Word).toNat < [(0x01 : Byte), 0x02].length ∧
    [(0x01 : Byte)].length ≤ 0x10000 - (0xFFFF : Word).toNat := ⟨.inl rfl, by decide⟩

theorem witness_LoadThenResetStartsAtLoadAddress :
    Stopped State.powerOn ∧ State.powerOn.mem.wf = true ∧
    [(0xA9 : Byte), 0x05, 0x00].length ≤ 0x10000 - Config.default.programLoadAddr.toNat := ⟨.inl rfl, by decide⟩

theorem witness_RunBeforeResetRaises :
    Stopped State.powerOn ∧ State.powerOn.pc = none ∧ construct Config.default = .next State.powerOn :=
  ⟨.inl rfl, rfl, rfl⟩

/-- A run that ends: the second clause's hypothesis too. -/
theorem witness_RunIsStepsUntilHaltedOrFaulted :
    Stopped State.reset ∧ State.reset.pc ≠ none ∧
    run Config.default 1 State.reset = .next { State.reset with pc := some 0x0001, runState := .halted } :=
  ⟨.inl rfl, by decide, rfl⟩

theorem witness_RunResumesAfterHalt :
    (stateAt 0xFFFF [0x00] []).pc = some 0xFFFF ∧
    ∃ t, step (stateAt 0xFFFF [0x00] []) = .next t ∧ t.runState = .halted := ⟨rfl, _, rfl, rfl⟩

theorem witness_FaultedInstanceAnswersItsFault :
    (raise (.illegalOpcode 0xEA 0x8002) State.reset).runState = .faulted ∧
    (raise (.illegalOpcode 0xEA 0x8002) State.reset).fault = some (.illegalOpcode 0xEA 0x8002) := ⟨rfl, rfl⟩

/-- A load that goes through to the end of its run, and one that is refused. -/
theorem witness_LoadAndRunComposes :
    (∃ l r t, load Config.default [] State.powerOn = .next l ∧ resetOp Config.default l = .next r ∧
      run Config.default 1 r = .next t) ∧
    load { Config.default with programLoadAddr := 0xFFFF } [0x01, 0x02] State.powerOn = .refused (.imageTooLong 2) :=
  ⟨⟨_, _, _, rfl, rfl, rfl⟩, rfl⟩

/-- The longest image that fits. -/
theorem witness_FreshRunsEndWithin32768Steps : (List.replicate 32768 (0xA9 : Byte)).length ≤ 32768 :=
  Nat.le_of_eq List.length_replicate

end Sys2Proof.Tests
end

/-! PROOF. The state family (10_state.md): the named bits of P, the machine invariant, the storage-only values, and
the bits and the register that no step reads. -/

namespace Sys2Proof.Proofs

open Sys2Proof.Machine Sys2Proof.Claims

/-! ## The named bits of P as numbers and as masks (R25, R35, R36) -/

/-- A bit of a byte, as a digit of its value. -/
theorem toNat_getLsbD (p : Byte) (i : Nat) : (p.getLsbD i).toNat = p.toNat / 2 ^ i % 2 := Nat.toNat_testBit ..

/-- A bit of a byte is set exactly when the digit of its value is 1. -/
theorem getLsbD_eq_true_iff (p : Byte) (i : Nat) : p.getLsbD i = true ↔ p.toNat / 2 ^ i % 2 = 1 := by
  rw [← toNat_getLsbD, Bool.toNat_eq_one]

/-- A byte is the sum of its eight bits at their weights (R25). -/
theorem toNat_eq_sum_bits (p : Byte) :
    p.toNat = (p.getLsbD 0).toNat + 2 * (p.getLsbD 1).toNat + 4 * (p.getLsbD 2).toNat + 8 * (p.getLsbD 3).toNat +
      16 * (p.getLsbD 4).toNat + 32 * (p.getLsbD 5).toNat + 64 * (p.getLsbD 6).toNat + 128 * (p.getLsbD 7).toNat := by
  have hp := p.isLt
  simp only [toNat_getLsbD]
  omega

/-- A bit write clears the bit and then puts the new value in its place. -/
theorem setBit_eq_mask (p : Byte) (i : Nat) (b : Bool) :
    setBit p i b = (p &&& ~~~ BitVec.twoPow 8 i) ||| (if b then BitVec.twoPow 8 i else 0#8) := by
  cases b with
  | false => simp [setBit]
  | true =>
    apply BitVec.eq_of_getLsbD_eq
    intro j hj
    by_cases hji : j = i
    · subst hji
      simp [setBit, hj]
    · simp [setBit, hj, hji]

/-- The flag updater as masks: bit 7 from the result, bit 1 from its being zero, the rest from P (R35). -/
theorem updateZeroNegative_eq_mask (p r : Byte) :
    updateZeroNegative p r = (p &&& 0x7D) ||| (r &&& 0x80) ||| (if r = 0x00 then 0x02 else 0x00) := by
  apply BitVec.eq_of_getLsbD_eq
  intro j hj
  rw [getLsbD_updateZeroNegative]
  by_cases hr : r = 0#8
  · interval_cases j <;> simp [hr]
  · interval_cases j <;> simp [hr]

/-- Settles O21: reads are binary digits, writes are masks. -/
theorem flagAccessTouchesItsBitOnly : Obligations.FlagAccessTouchesItsBitOnly := by
  intro p r b
  have hC : getC p = true ↔ p.toNat % 2 = 1 := by simpa [getC] using getLsbD_eq_true_iff p 0
  exact ⟨hC, getLsbD_eq_true_iff p 1, getLsbD_eq_true_iff p 6, getLsbD_eq_true_iff p 7,
    setBit_eq_mask p 0 b, setBit_eq_mask p 1 b, setBit_eq_mask p 6 b, setBit_eq_mask p 7 b,
    updateZeroNegative_eq_mask p r⟩

/-- Settles O57: each accessor is its field, and P is the sum of its bits. -/
theorem accessorsReadNamedBits : Obligations.AccessorsReadNamedBits := fun s =>
  ⟨rfl, rfl, rfl, rfl, rfl, Iff.rfl, rfl, toNat_eq_sum_bits s.p⟩

/-! ## The machine invariant (R33, R37, R38) -/

/-- A step under any table keeps the invariant: an error writes the record and Faulted together, and the other ends
of a step keep the empty record of a state in Fetching and leave PC defined (from the fetch at `addr`). -/
theorem stepWith_keeps_inv {table : InstrTable} {s t : State} (hs : s.Inv) (h : stepWith table s = .next t) :
    t.Inv := by
  obtain ⟨hmem, hrecord, -⟩ := hs
  obtain ⟨hrun, hend⟩ := stepWith_cases h
  have hnone : s.fault = none := by simpa [hrun] using hrecord
  obtain ⟨f, rfl⟩ | ⟨addr, -, rfl | ⟨n, v, rfl⟩ | ⟨n, m, rfl⟩⟩ := hend
  · simp [State.Inv, hmem]
  · simp [State.Inv, hmem, hnone]
  · simp [State.Inv, hmem, hnone]
  · simp [State.Inv, hmem, hnone]

/-- Settles O41, by the step lemma for any table. -/
theorem stepKeepsInv : Obligations.StepKeepsInv := fun _ _ hs h => stepWith_keeps_inv hs h

/-- Settles O42. -/
theorem resetHasInv : Obligations.ResetHasInv := ⟨reset_mem_wf, by decide⟩

/-! ## The storage-only values (R30, R41) -/

theorem powerOn_idleStorage : State.powerOn.IdleStorage := by decide

/-- `reset()` puts the power-on registers back, whatever they were (R151). -/
theorem resetState_idleStorage (c : Config) (s : State) : (resetState c s).IdleStorage := powerOn_idleStorage

theorem construct_idleStorage {c : Config} {t : State} (h : construct c = .next t) : t.IdleStorage := by
  obtain ⟨-, rfl⟩ := construct_next h
  exact powerOn_idleStorage

theorem resetOp_idleStorage {c : Config} {s t : State} (h : resetOp c s = .next t) : t.IdleStorage := by
  obtain ⟨-, rfl⟩ := resetOp_next h
  exact resetState_idleStorage c s

theorem load_keeps_idleStorage {c : Config} {image : List Byte} {s t : State} (hs : s.IdleStorage)
    (h : load c image s = .next t) : t.IdleStorage := by
  obtain ⟨-, -, rfl⟩ := load_next h
  exact hs

theorem startRun_keeps_idleStorage {s t : State} (hs : s.IdleStorage) (h : startRun s = .next t) :
    t.IdleStorage := by
  obtain ⟨-, ⟨-, rfl⟩ | ⟨addr, -, rfl⟩⟩ := startRun_next h
  · exact hs
  · exact hs

/-- No step writes X, Y or SP, and the flag computations of LDA and ADC leave bits 2 to 5 of P. -/
theorem stepWith_keeps_idleStorage {table : InstrTable} {s t : State} (hs : s.IdleStorage)
    (h : stepWith table s = .next t) : t.IdleStorage := by
  obtain ⟨-, ⟨f, rfl⟩ | ⟨addr, -, rfl | ⟨n, v, rfl⟩ | ⟨n, m, rfl⟩⟩⟩ := stepWith_cases h
  · exact hs
  · exact hs
  · simpa [State.IdleStorage] using hs
  · simpa [State.IdleStorage] using hs

theorem run_keeps_idleStorage {c : Config} {budget : Nat} {s t : State} (hs : s.IdleStorage)
    (h : run c budget s = .next t) : t.IdleStorage :=
  run_keeps (fun _ _ => startRun_keeps_idleStorage) (fun _ _ => stepWith_keeps_idleStorage) hs h

/-- The reset inside `load_and_run` gives the values, and the run keeps them (R154). -/
theorem loadAndRun_idleStorage {c : Config} {image : List Byte} {budget : Nat} {s t : State}
    (h : loadAndRun c image budget s = .next t) : t.IdleStorage := by
  obtain ⟨_, _, -, hreset, hrun⟩ := loadAndRun_next h
  exact run_keeps_idleStorage (resetOp_idleStorage hreset) hrun

/-- Settles O60, operation by operation. -/
theorem hostOperationsKeepIdleStorage : Obligations.HostOperationsKeepIdleStorage := by
  intro c t
  refine ⟨construct_idleStorage, ?_⟩
  rintro image budget s hs (h | h | h | h | h | h)
  · exact load_keeps_idleStorage hs h
  · exact resetOp_idleStorage h
  · exact startRun_keeps_idleStorage hs h
  · exact stepWith_keeps_idleStorage hs h
  · exact run_keeps_idleStorage hs h
  · exact loadAndRun_idleStorage h

/-- The storage-only values hold in every state the host can bring about. -/
theorem hostReachable_idleStorage {c : Config} {s : State} (h : HostReachable c s) : s.IdleStorage := by
  induction h with
  | constructed h => exact construct_idleStorage h
  | loaded _ h ih => exact load_keeps_idleStorage ih h
  | resetDone _ h _ => exact resetOp_idleStorage h
  | runStarted _ h ih => exact startRun_keeps_idleStorage ih h
  | stepped _ h ih => exact stepWith_keeps_idleStorage ih h

@[simp] theorem zext16_zero : zext16 0#8 = 0#16 := by decide

/-- An index of 0 leaves every indexed mode's address as it is (R85 to R90). -/
@[simp] theorem eaZeroPageIndexed_zero (n : Byte) : eaZeroPageIndexed n 0#8 = eaZeroPage n := by
  simp [eaZeroPageIndexed, eaZeroPage]

@[simp] theorem eaAbsoluteIndexed_zero (w : Word) : eaAbsoluteIndexed w 0#8 = eaAbsolute w := by
  simp [eaAbsoluteIndexed, eaAbsolute]

@[simp] theorem eaIndirectX_zero (m : Memory) (n : Byte) : eaIndirectX m n 0#8 = zpRead16 m n := by
  simp [eaIndirectX]

@[simp] theorem eaIndirectY_zero (m : Memory) (n : Byte) : eaIndirectY m n 0#8 = zpRead16 m n := by
  simp [eaIndirectY]

/-- Settles O44, by induction on how the host reached the state. -/
theorem hostReachableStatesIndexByZero : Obligations.HostReachableStatesIndexByZero := by
  intro c s h
  have hidle := hostReachable_idleStorage h
  refine ⟨hidle, fun pc => ?_⟩
  obtain ⟨hx, hy, -⟩ := hidle
  simp [resolve, hx, hy]

/-! ## What no step reads: SP and bits 2 to 5 of P (R30, R31, R116) -/

/-- `p` with bits 2 to 5 taken from `bits`: what `withReserved` leaves in P. -/
def withReservedBits (p bits : Byte) : Byte := (p &&& 0xC3) ||| (bits &&& 0x3C)

theorem getLsbD_withReservedBits (p bits : Byte) (j : Nat) :
    (withReservedBits p bits).getLsbD j = if 2 ≤ j ∧ j ≤ 5 then bits.getLsbD j else p.getLsbD j := by
  by_cases hj : j < 8
  · interval_cases j <;> simp [withReservedBits]
  · have hout : ¬ (2 ≤ j ∧ j ≤ 5) := by omega
    simp [hout, BitVec.getLsbD_of_ge _ j (by omega : 8 ≤ j)]

@[simp] theorem getC_withReservedBits (p bits : Byte) : getC (withReservedBits p bits) = getC p :=
  getLsbD_withReservedBits p bits 0

/-- The flag updater commutes with replacing the reserved bits. -/
theorem updateZeroNegative_withReservedBits (p bits r : Byte) :
    updateZeroNegative (withReservedBits p bits) r = withReservedBits (updateZeroNegative p r) bits := by
  apply BitVec.eq_of_getLsbD_eq
  intro j _
  by_cases hj : 2 ≤ j ∧ j ≤ 5
  · have h7 : j ≠ 7 := by omega
    have h1 : j ≠ 1 := by omega
    simp [getLsbD_updateZeroNegative, getLsbD_withReservedBits, hj, h7, h1]
  · simp [getLsbD_updateZeroNegative, getLsbD_withReservedBits, hj]

/-- The flag computation of ADC commutes with replacing the reserved bits, D among them (R116). -/
theorem adcStatus_withReservedBits (p bits a m : Byte) :
    adcStatus (withReservedBits p bits) a m = withReservedBits (adcStatus p a m) bits := by
  apply BitVec.eq_of_getLsbD_eq
  intro j _
  by_cases hj : 2 ≤ j ∧ j ≤ 5
  · have h7 : j ≠ 7 := by omega
    have h6 : j ≠ 6 := by omega
    have h1 : j ≠ 1 := by omega
    have h0 : j ≠ 0 := by omega
    simp [getLsbD_adcStatus, getLsbD_withReservedBits, hj, h7, h6, h1, h0]
  · simp [getLsbD_adcStatus, getLsbD_withReservedBits, hj]

section
variable (bits sp : Byte) (s : State)

theorem withReserved_eq : withReserved s bits sp = { s with p := withReservedBits s.p bits, sp := sp } := rfl

theorem loadAccumulator_withReserved (v : Byte) :
    loadAccumulator v (withReserved s bits sp) = withReserved (loadAccumulator v s) bits sp := by
  simp [withReserved_eq, loadAccumulator, updateZeroNegative_withReservedBits]

theorem addWithCarry_withReserved (m : Byte) :
    addWithCarry m (withReserved s bits sp) = withReserved (addWithCarry m s) bits sp := by
  simp [withReserved_eq, addWithCarry, adcStatus_withReservedBits]

/-- Every meaning computes the same from the changed state, its operand address included. -/
theorem exec_withReserved (i : Instr) :
    exec i (withReserved s bits sp) = mapNext (fun t => withReserved t bits sp) (exec i s) := by
  cases i with
  | halt => rfl
  | ldaImmediate _ | ldaZeroPage _ | ldaZeroPageX _ | ldaAbsolute _ | ldaAbsoluteX _ | ldaAbsoluteY _
  | ldaIndirectX _ | ldaIndirectY _ =>
    exact congrArg (fun t => Host.Outcome.next (advance _ t)) (loadAccumulator_withReserved bits sp s _)
  | adcImmediate _ | adcZeroPage _ | adcZeroPageX _ | adcAbsolute _ | adcAbsoluteX _ | adcAbsoluteY _
  | adcIndirectX _ | adcIndirectY _ =>
    exact congrArg (fun t => Host.Outcome.next (advance _ t)) (addWithCarry_withReserved bits sp s _)

/-- An entry that is no row of the instruction set computes the same from the changed state too. -/
theorem performEntry_withReserved (e : Entry) (addr : Word) :
    performEntry e addr (withReserved s bits sp) = withReserved (performEntry e addr s) bits sp := by
  have hresolve : resolve e.mode (addr + 1#16) (withReserved s bits sp) = resolve e.mode (addr + 1#16) s := rfl
  unfold performEntry
  rw [hresolve]
  cases e.operation with
  | halt => rfl
  | lda =>
    cases resolve e.mode (addr + 1#16) s with
    | none => rfl
    | some ea => exact congrArg (advance _) (loadAccumulator_withReserved bits sp (beginExecute addr s) _)
  | adc =>
    cases resolve e.mode (addr + 1#16) s with
    | none => rfl
    | some ea => exact congrArg (advance _) (addWithCarry_withReserved bits sp (beginExecute addr s) _)

/-- Outside Fetching the answer holds no state to change. -/
theorem noStep_withReserved :
    noStep (withReserved s bits sp) = mapNext (fun t => withReserved t bits sp) (noStep s) := by
  have hsame : noStep (withReserved s bits sp) = noStep s := rfl
  rw [hsame]
  cases h : noStep s with
  | next t => exact absurd h (noStep_ne_next s t)
  | fault _ | refused _ => rfl

/-- A step under any table commutes with replacing the reserved bits and SP: the fetch phase reads neither. -/
theorem stepWith_withReserved (table : InstrTable) :
    stepWith table (withReserved s bits sp) = mapNext (fun t => withReserved t bits sp) (stepWith table s) := by
  have hrun : (withReserved s bits sp).runState = s.runState := rfl
  have hfetch : fetch table (withReserved s bits sp) = fetch table s := rfl
  unfold stepWith
  rw [hrun, hfetch]
  split
  · cases fetch table s with
    | error f => rfl
    | instr i addr => exact exec_withReserved bits sp (beginExecute addr s) i
    | entry e addr => exact congrArg Host.Outcome.next (performEntry_withReserved bits sp s e addr)
  · exact noStep_withReserved bits sp s

end

/-- Settles O40, by the noninterference lemma for any table. -/
theorem reservedBitsChangeNothing : Obligations.ReservedBitsChangeNothing := fun s bits sp =>
  stepWith_withReserved bits sp s Config.default.instrTable

end Sys2Proof.Proofs

/-! PROOF. The memory family (20_memory.md): what reads and writes do byte by byte, that the bytes at PC are the
instruction the step runs, and what no step writes. -/

namespace Sys2Proof.Proofs

open Sys2Proof.Machine Sys2Proof.Claims

/-! ## Addresses as numbers (R13, R47) -/

/-- An address moved on, as the claims write it with numbers. -/
theorem ofNat_toNat_add (addr : Word) (n : Nat) :
    BitVec.ofNat 16 (addr.toNat + n) = addr + BitVec.ofNat 16 n := by
  simp [BitVec.ofNat_add]

/-- The `n + 1`-th address on is the `n`-th from the next one. -/
theorem add_ofNat_succ (addr : Word) (n : Nat) :
    addr + BitVec.ofNat 16 (n + 1) = addr + 1#16 + BitVec.ofNat 16 n := by
  rw [Nat.add_comm, BitVec.ofNat_add, BitVec.add_assoc]

theorem byteAt_toNat_add (s : State) (addr : Word) (n : Nat) :
    byteAt s (addr.toNat + n) = memRead s.mem (addr + BitVec.ofNat 16 n) := by
  rw [byteAt, ofNat_toNat_add]

@[simp] theorem toNat_zext16 (p : Byte) : (zext16 p).toNat = p.toNat := by
  have hp := p.isLt
  simp [zext16]
  omega

/-- Below 0xFF, the next pointer of page zero is the next address (R52). -/
theorem zext16_add_one {p : Byte} (hp : p ≠ 0xFF) : zext16 (p + 1#8) = zext16 p + 1#16 := by
  have hlt := p.isLt
  have hne : p.toNat ≠ 255 := fun h => hp (BitVec.eq_of_toNat_eq h)
  apply BitVec.eq_of_toNat_eq
  simp only [toNat_zext16, BitVec.toNat_add, BitVec.toNat_ofNat]
  omega

theorem lowByte_toNat (w : Word) : (lowByte w).toNat = w.toNat % 256 := by
  simp [lowByte]

theorem highByte_toNat (w : Word) : (highByte w).toNat = w.toNat / 256 := by
  have hw := w.isLt
  simp [highByte, Nat.shiftRight_eq_div_pow]
  omega

/-! ## 16-bit reads (R49, R52) -/

theorem memRead16_toNat (m : Memory) (addr : Word) :
    (memRead16 m addr).toNat = (memRead m addr).toNat + 256 * (memRead m (addr + 1#16)).toNat := by
  rw [memRead16, wordOf_toNat]
  omega

theorem zpRead16_toNat (m : Memory) (p : Byte) :
    (zpRead16 m p).toNat = (memRead m (zext16 p)).toNat + 256 * (memRead m (zext16 (p + 1#8))).toNat := by
  rw [zpRead16, wordOf_toNat]
  omega

/-- Away from the last pointer of page zero, a pointer read is an ordinary 16-bit read. -/
theorem zpRead16_eq_memRead16 (m : Memory) {p : Byte} (hp : p ≠ 0xFF) : zpRead16 m p = memRead16 m (zext16 p) := by
  rw [zpRead16, memRead16, zext16_add_one hp]

/-- Settles O24: both reads are a low and a high byte, and their high bytes stand at the same address unless the
pointer wraps. -/
theorem sixteenBitReads : Obligations.SixteenBitReads := by
  intro m addr p
  have hnext : BitVec.ofNat 16 ((addr.toNat + 1) % 65536) = addr + 1#16 := BitVec.eq_of_toNat_eq (by simp)
  have hptr : BitVec.ofNat 16 p.toNat = zext16 p := BitVec.eq_of_toNat_eq (by simp [zext16])
  have hptrNext : BitVec.ofNat 16 ((p.toNat + 1) % 256) = zext16 (p + 1#8) :=
    BitVec.eq_of_toNat_eq (by simp [zext16])
  rw [hnext, hptr, hptrNext]
  exact ⟨memRead16_toNat m addr, zpRead16_toNat m p, zpRead16_eq_memRead16 m⟩

/-! ## Writes (R50, R51, R68) -/

/-- A byte write reads back at its own address and leaves every other (R51). -/
theorem memRead_memWrite {m : Memory} (hm : m.wf = true) (addr k : Word) (v : Byte) :
    memRead (memWrite m addr v) k = if k = addr then v else memRead m k := by
  simp [memRead, memWrite, cellAt_putCell hm, BitVec.toNat_inj]

/-- A word write is its high byte one address on, its low byte at its address, and nothing else (R50). -/
theorem memRead_memWrite16 {m : Memory} (hm : m.wf = true) (addr k w : Word) :
    memRead (memWrite16 m addr w) k =
      if k = addr + 1#16 then highByte w else if k = addr then lowByte w else memRead m k := by
  rw [memWrite16, memRead_memWrite (memWrite_wf hm _ _), memRead_memWrite hm]

/-- Settles O25, by the two read-after-write rules. -/
theorem writesPutTheirBytesOnly : Obligations.WritesPutTheirBytesOnly := by
  intro m hm addr v w
  have hnext : addr ≠ addr + 1#16 := by simp
  rw [ofNat_toNat_add]
  refine ⟨memWrite_wf hm addr v, ?_, fun k hk => ?_, memWrite16_wf hm addr w, ?_, ?_, fun k hk hk' => ?_⟩
  · simp [memRead_memWrite hm]
  · simp [memRead_memWrite hm, hk]
  · simp [memRead_memWrite16 hm, lowByte_toNat]
  · simp [memRead_memWrite16 hm, highByte_toNat]
  · simp [memRead_memWrite16 hm, hk, hk']

/-- Placing bytes leaves every address outside them (R68). -/
theorem memRead_placeBytes_of_ne {m : Memory} (hm : m.wf = true) {addr k : Word} {bs : List Byte}
    (hk : ∀ n < bs.length, k ≠ addr + BitVec.ofNat 16 n) : memRead (placeBytes m addr bs) k = memRead m k := by
  induction bs generalizing m addr with
  | nil => rfl
  | cons b bs ih =>
    have hhead : k ≠ addr := by simpa using hk 0 (by simp)
    have htail : ∀ n < bs.length, k ≠ addr + 1#16 + BitVec.ofNat 16 n := fun n hn => by
      rw [← add_ofNat_succ]
      exact hk (n + 1) (by simpa using hn)
    rw [placeBytes, ih (memWrite_wf hm addr b) htail, memRead_memWrite hm, if_neg hhead]

/-- Placed bytes read back in order, as long as they do not come round the address space onto themselves (R68). -/
theorem memRead_placeBytes {m : Memory} (hm : m.wf = true) (addr : Word) {bs : List Byte} (hbs : bs.length ≤ 65536)
    {n : Nat} (hn : n < bs.length) : memRead (placeBytes m addr bs) (addr + BitVec.ofNat 16 n) = bs[n] := by
  induction bs generalizing m addr n with
  | nil => simp at hn
  | cons b bs ih =>
    have hwf := memWrite_wf hm addr b
    simp only [List.length_cons] at hbs hn
    cases n with
    | zero =>
      have hkept : ∀ j < bs.length, addr ≠ addr + 1#16 + BitVec.ofNat 16 j := fun j hj => by
        bv_omega
      simp [placeBytes, memRead_placeBytes_of_ne hwf hkept, memRead_memWrite hm]
    | succ n =>
      rw [add_ofNat_succ, placeBytes]
      exact ih hwf (addr + 1#16) (by omega) (by omega)

/-! ## The bytes at PC are the instruction the step runs (R65, R68, R94) -/

/-- The operand an instruction's trailing bytes give back is its own (R69). -/
theorem instrOf_entryOf (i : Instr) (rest : List Byte) :
    instrOf (entryOf i) ((operandBytes i ++ rest).headD 0#8) ((operandBytes i ++ rest).tail.headD 0#8) = some i := by
  cases i with
  | halt => rfl
  | ldaImmediate _ | ldaZeroPage _ | ldaZeroPageX _ | ldaIndirectX _ | ldaIndirectY _
  | adcImmediate _ | adcZeroPage _ | adcZeroPageX _ | adcIndirectX _ | adcIndirectY _ => rfl
  | ldaAbsolute w | ldaAbsoluteX w | ldaAbsoluteY w | adcAbsolute w | adcAbsoluteX w | adcAbsoluteY w =>
    simp [instrOf, entryOf, operationOf, modeOf, operandBytes]

/-- An instruction has as many trailing bytes as its row says (R73). -/
theorem operandBytes_length (i : Instr) : (operandBytes i).length = (entryOf i).length := by
  cases i <;> rfl

theorem encode_length_le (i : Instr) : (encode i).length ≤ 3 := by
  cases i <;> simp [encode, operandBytes]

/-- Under a table that admits it, an instruction's bytes decode to it, whatever follows them (R68, R80). -/
theorem decode_encode_append {table : InstrTable} {i : Instr} (hi : instrWellFormed table i = true)
    (rest : List Byte) : decode table (encode i ++ rest) = .instr i rest := by
  simp only [encode, List.cons_append, decode, instrWellFormed_iff.1 hi, instrOf_entryOf]
  simp [← operandBytes_length]

/-- What decodes to an instruction has the row of its opcode byte in the table, and the operand bytes the row names
(R76, R80). -/
theorem decode_cons_eq_instr {table : InstrTable} {op : Byte} {bytes rest : List Byte} {i : Instr}
    (h : decode table (op :: bytes) = .instr i rest) :
    ∃ e, lookup table op = some e ∧ instrOf e (bytes.headD 0#8) (bytes.tail.headD 0#8) = some i ∧
      e.length ≤ bytes.length ∧ rest = bytes.drop e.length := by
  simp only [decode] at h
  split at h
  case h_1 => cases h
  case h_2 e hlookup =>
    split at h
    case h_1 => cases h
    case h_2 j hinstr =>
      split at h
      case isTrue hle =>
        cases h
        exact ⟨e, hlookup, hinstr, hle, rfl⟩
      case isFalse => cases h

/-- The default table admits every instruction (R78). -/
theorem instrWellFormed_standard17 (i : Instr) : instrWellFormed standard17 i = true := by
  cases i <;> rfl

/-- The three bytes from `addr` on: all that a fetch there reads. -/
def fetchBytes (s : State) (addr : Word) : List Byte :=
  [byteAt s addr.toNat, byteAt s (addr.toNat + 1), byteAt s (addr.toNat + 2)]

/-- Fetch finds the instruction that the bytes at PC decode to (R94). -/
theorem fetch_of_decode {table : InstrTable} {s : State} {addr : Word} {i : Instr} {rest : List Byte}
    (hpc : s.pc = some addr) (h : decode table (fetchBytes s addr) = .instr i rest) :
    fetch table s = .instr i addr := by
  obtain ⟨e, hlookup, hinstr, -, -⟩ := decode_cons_eq_instr h
  have hop : byteAt s addr.toNat = memRead s.mem addr := by simp [byteAt]
  rw [hop] at hlookup
  simp only [byteAt_toNat_add, List.headD_cons, List.tail_cons] at hinstr
  simp [fetch, hpc, hlookup, hinstr]

theorem begun_eq_beginExecute (s : State) (addr : Word) : begun s addr = beginExecute addr s := by
  rw [begun, ofNat_toNat_add]
  rfl

/-- Under every table, a step in Fetching runs the instruction the bytes at PC decode to (R93, R94). -/
theorem stepWith_of_decode {table : InstrTable} {s : State} {addr : Word} {i : Instr} {rest : List Byte}
    (hrun : s.runState = .fetching) (hpc : s.pc = some addr)
    (h : decode table (fetchBytes s addr) = .instr i rest) : stepWith table s = exec i (begun s addr) := by
  rw [stepWith, if_pos hrun, fetch_of_decode hpc h, begun_eq_beginExecute]

/-- At most three bytes standing at `addr` are where the fetched bytes begin. -/
theorem exists_append_eq_fetchBytes {s : State} {addr : Word} {bs : List Byte} (h : BytesAt s addr bs)
    (hbs : bs.length ≤ 3) : ∃ rest, bs ++ rest = fetchBytes s addr := by
  have hbegin : bs = (fetchBytes s addr).take bs.length := by
    refine List.ext_getElem (by simpa [fetchBytes] using hbs) fun k hk _ => ?_
    have hk3 : k < 3 := by omega
    rw [List.getElem_take, ← h k hk]
    interval_cases k <;> rfl
  exact ⟨_, (congrArg (· ++ _) hbegin).trans (List.take_append_drop bs.length (fetchBytes s addr))⟩

/-- A step in Fetching that finds an instruction's bytes at PC runs it, under every table that admits it. -/
theorem stepWith_of_bytesAt {table : InstrTable} {s : State} {addr : Word} {i : Instr}
    (hi : instrWellFormed table i = true) (hrun : s.runState = .fetching) (hpc : s.pc = some addr)
    (h : BytesAt s addr (encode i)) : stepWith table s = exec i (begun s addr) := by
  obtain ⟨rest, hrest⟩ := exists_append_eq_fetchBytes h (encode_length_le i)
  exact stepWith_of_decode hrun hpc (hrest ▸ decode_encode_append hi rest)

/-- Bytes placed at `addr` stand there (R68). -/
theorem bytesAt_placeBytes {s : State} (hm : s.mem.wf = true) (addr : Word) {bs : List Byte}
    (hbs : bs.length ≤ 65536) : BytesAt { s with mem := placeBytes s.mem addr bs } addr bs := by
  intro k hk
  rw [byteAt_toNat_add]
  exact memRead_placeBytes hm addr hbs hk

/-- Settles O31: the placed bytes stand at PC, and the step runs what stands at PC. -/
theorem fetchSeesWrittenBytes : Obligations.FetchSeesWrittenBytes := by
  intro i s addr hm hrun hpc
  have hlen : (encode i).length ≤ 65536 := (encode_length_le i).trans (by decide)
  exact stepWith_of_bytesAt (instrWellFormed_standard17 i) hrun hpc (bytesAt_placeBytes hm addr hlen)

/-! ## What no step writes (R40, R57) -/

/-- The flag updater passes bits 2 to 5 of P through (R35). -/
theorem getLsbD_updateZeroNegative_reserved (p r : Byte) {k : Nat} (h2 : 2 ≤ k) (h5 : k ≤ 5) :
    (updateZeroNegative p r).getLsbD k = p.getLsbD k := by
  have h7 : k ≠ 7 := by omega
  have h1 : k ≠ 1 := by omega
  simp [getLsbD_updateZeroNegative, h7, h1]

/-- The flag computation of ADC passes bits 2 to 5 of P through (R111). -/
theorem getLsbD_adcStatus_reserved (p a m : Byte) {k : Nat} (h2 : 2 ≤ k) (h5 : k ≤ 5) :
    (adcStatus p a m).getLsbD k = p.getLsbD k := by
  have h6 : k ≠ 6 := by omega
  have h0 : k ≠ 0 := by omega
  rw [adcStatus, getLsbD_updateZeroNegative_reserved _ _ h2 h5]
  simp [getLsbD_setV, getLsbD_setC, h6, h0]

/-- Settles O37, over the ends a step can have. -/
theorem noStepWritesMemoryOrIndexes : Obligations.NoStepWritesMemoryOrIndexes := by
  intro table s t h
  obtain ⟨-, ⟨f, rfl⟩ | ⟨addr, -, rfl | ⟨n, v, rfl⟩ | ⟨n, m, rfl⟩⟩⟩ := stepWith_cases h
  · exact ⟨rfl, rfl, rfl, rfl, fun _ _ _ => rfl⟩
  · exact ⟨rfl, rfl, rfl, rfl, fun _ _ _ => rfl⟩
  · exact ⟨rfl, rfl, rfl, rfl, fun _ => getLsbD_updateZeroNegative_reserved s.p v⟩
  · exact ⟨rfl, rfl, rfl, rfl, fun _ => getLsbD_adcStatus_reserved s.p s.a m⟩

end Sys2Proof.Proofs

/-! PROOF. The encoding family (30_encoding.md): that encoding and decoding invert each other, which opcode bytes
decode, where each addressing mode points, and that the step is the cycle the spec writes, with the ends it can have. -/

namespace Sys2Proof.Proofs

open Sys2Proof.Machine Sys2Proof.Claims

/-! ## Encoding and decoding invert each other (R68 to R80) -/

/-- Settles O27, by decoding an instruction's bytes under the row its table holds. -/
theorem decodeOfEncode : Obligations.DecodeOfEncode :=
  ⟨instrWellFormed_standard17, fun _ _ rest hi => decode_encode_append hi rest⟩

/-- An entry that stands for an instruction is that instruction's row but for the opcode byte, and the
instruction's trailing bytes are the first of the two read, as many as the entry says (R69, R73). -/
theorem instrOf_eq_some {e : Entry} {b1 b2 : Byte} {i : Instr} (h : instrOf e b1 b2 = some i) :
    e = { entryOf i with opcode := e.opcode } ∧ operandBytes i = [b1, b2].take e.length := by
  rcases e with ⟨op, operation, mode, len⟩
  unfold instrOf at h
  split at h
  case isFalse => cases h
  case isTrue hlen =>
    obtain rfl : len = modeLength mode := hlen
    cases operation with
    | halt => cases mode <;> cases h; exact ⟨rfl, rfl⟩
    | lda | adc =>
      cases mode <;> cases h <;> simp [entryOf, opcodeOf, operationOf, modeOf, operandBytes, modeLength]

/-- In the default table an operation and a mode name one row (R78). -/
theorem standard17_row_unique : ∀ d ∈ standard17, ∀ e ∈ standard17,
    d.operation = e.operation → d.mode = e.mode → d = e := by decide

/-- The row of every instruction stands in the default table (R78). -/
theorem entryOf_mem_standard17 (i : Instr) : entryOf i ∈ standard17 :=
  (lookup_some (instrWellFormed_iff.1 (instrWellFormed_standard17 i))).1

/-- A row of the default table that stands for an instruction is that instruction's row, opcode byte included. -/
theorem entryOf_eq_of_instrOf {e : Entry} (he : e ∈ standard17) {b1 b2 : Byte} {i : Instr}
    (h : instrOf e b1 b2 = some i) : entryOf i = e := by
  obtain ⟨hrow, -⟩ := instrOf_eq_some h
  exact standard17_row_unique _ (entryOf_mem_standard17 i) e he
    (congrArg Entry.operation hrow).symm (congrArg Entry.mode hrow).symm

theorem mem_standard17_of_lookup {table : InstrTable} (ht : rowsOfStandard17 table = true) {op : Byte} {e : Entry}
    (h : lookup table op = some e) : e ∈ standard17 :=
  of_decide_eq_true (List.all_eq_true.1 ht e (lookup_some h).1)

/-- The first `n ≤ 2` bytes of a list are read the same through its first two bytes with a default. -/
theorem take_headD_pair {bytes : List Byte} {n : Nat} (hn : n ≤ 2) (hle : n ≤ bytes.length) :
    [bytes.headD 0#8, bytes.tail.headD 0#8].take n = bytes.take n := by
  match bytes with
  | [] => simp_all
  | [b] => interval_cases n <;> simp_all
  | b :: c :: bs => interval_cases n <;> rfl

theorem modeLength_le (mode : Mode) : modeLength mode ≤ 2 := by cases mode <;> decide

/-- Under a table of `standard17` rows, what decodes to an instruction is its encoding, and the table admits it. -/
theorem encode_of_decode {table : InstrTable} (ht : rowsOfStandard17 table = true) {bytes rest : List Byte}
    {i : Instr} (h : decode table bytes = .instr i rest) :
    encode i ++ rest = bytes ∧ instrWellFormed table i = true := by
  match bytes with
  | [] => cases h
  | op :: bytes =>
    obtain ⟨e, hlookup, hinstr, hle, rfl⟩ := decode_cons_eq_instr h
    obtain rfl : entryOf i = e := entryOf_eq_of_instrOf (mem_standard17_of_lookup ht hlookup) hinstr
    obtain rfl : opcodeOf i = op := (lookup_some hlookup).2
    have hoperands : operandBytes i = bytes.take (entryOf i).length :=
      (instrOf_eq_some hinstr).2.trans (take_headD_pair (modeLength_le _) hle)
    exact ⟨by simp [encode, hoperands], instrWellFormed_iff.2 hlookup⟩

/-- Settles O28, by inverting the decoder. -/
theorem encodeOfDecode : Obligations.EncodeOfDecode := fun _ _ _ _ ht h => encode_of_decode ht h

/-- Settles O26. -/
theorem sampleWordsDecode : Obligations.SampleWordsDecode := by
  unfold Obligations.SampleWordsDecode
  decide

/-! ## Which bytes have a row (R75 to R79) -/

theorem lookup_eq_none_iff {table : InstrTable} {op : Byte} :
    lookup table op = none ↔ ∀ e ∈ table, e.opcode ≠ op := by
  induction table with
  | nil => simp [lookup]
  | cons d table ih =>
    by_cases hd : d.opcode = op
    · simp [lookup, hd]
    · simp [lookup, hd, ih]

/-- In a table with one row a byte, looking a row's byte up finds that row (R74, R76). -/
theorem lookup_opcode_of_mem {table : InstrTable} (ht : uniqueOpcodes table = true) {e : Entry} (he : e ∈ table) :
    lookup table e.opcode = some e := by
  cases h : lookup table e.opcode with
  | none => exact absurd rfl (lookup_eq_none_iff.1 h e he)
  | some d =>
    obtain ⟨hd, hop⟩ := lookup_some h
    exact congrArg some (List.inj_on_of_nodup_map (of_decide_eq_true ht) hd he hop)

/-- Decoding refuses an opcode byte exactly when the table has no row for it (R79). -/
theorem decode_cons_eq_illegalOpcode_iff {table : InstrTable} {op : Byte} {rest : List Byte} :
    decode table (op :: rest) = .illegalOpcode op ↔ lookup table op = none := by
  cases hlookup : lookup table op with
  | none => simp [decode, hlookup]
  | some e =>
    simp only [decode, hlookup]
    cases instrOf e (rest.headD 0#8) (rest.tail.headD 0#8) with
    | none => simp
    | some i => by_cases hle : e.length ≤ rest.length <;> simp [hle]

/-- The bytes without a row in the default table are those R79 lists. -/
theorem lookup_standard17_eq_none_iff (op : Byte) : lookup standard17 op = none ↔ ListedIllegal op := by
  have hop := op.isLt
  simp only [lookup_eq_none_iff, standard17, List.forall_mem_cons, List.not_mem_nil, false_implies, implies_true,
    ne_eq, ← BitVec.toNat_inj, BitVec.toNat_ofNat, and_true, ListedIllegal, InListedRanges]
  omega

/-- A byte with no row raises IllegalOpcode and leaves the rest of the state, under every table (R94, R99). -/
theorem stepWith_of_lookup_eq_none {table : InstrTable} {s : State} {addr : Word} (hrun : s.runState = .fetching)
    (hpc : s.pc = some addr) (h : lookup table (memRead s.mem addr) = none) :
    stepWith table s = .next (failed s (.illegalOpcode (memRead s.mem addr) addr)) := by
  simp only [stepWith, hrun, fetch, hpc, h]
  rfl

/-- Settles O29: the listed bytes are those without a row, and the fetch of such a byte faults. -/
theorem illegalBytesAreTheListedOnes : Obligations.IllegalBytesAreTheListedOnes :=
  ⟨fun op _ => decode_cons_eq_illegalOpcode_iff.trans (lookup_standard17_eq_none_iff op),
    fun _ _ hrun hpc h => stepWith_of_lookup_eq_none hrun hpc ((lookup_standard17_eq_none_iff _).2 h)⟩

/-- A step reads the table at the fetched byte only. -/
theorem stepWith_congr {table table' : InstrTable} {s : State} {addr : Word} (hpc : s.pc = some addr)
    (h : lookup table (memRead s.mem addr) = lookup table' (memRead s.mem addr)) :
    stepWith table s = stepWith table' s := by
  have hfetch : fetch table s = fetch table' s := by simp only [fetch, hpc, h]
  rw [stepWith, stepWith, hfetch]

theorem standard17_uniqueOpcodes : uniqueOpcodes standard17 = true := by decide

/-- A row a restriction of the default table holds for a byte is the default table's row for it (R77). -/
theorem lookup_standard17_of_lookup {table : InstrTable} (ht : rowsOfStandard17 table = true) {op : Byte}
    {e : Entry} (h : lookup table op = some e) : lookup standard17 op = some e := by
  obtain rfl : e.opcode = op := (lookup_some h).2
  exact lookup_opcode_of_mem standard17_uniqueOpcodes (mem_standard17_of_lookup ht h)

/-- The profile `shown` has rows for two bytes (R77). -/
theorem lookup_shown_ne_none_iff (op : Byte) : lookup shown op ≠ none ↔ op = 0x00 ∨ op = 0xA9 := by
  rw [ne_eq, lookup_eq_none_iff]
  simp [shown, ← or_iff_not_imp_left, @eq_comm _ op]

/-- Settles O33: a restriction and the default table agree on the row of every byte the restriction has. -/
theorem restrictedTables : Obligations.RestrictedTables := by
  refine ⟨lookup_shown_ne_none_iff, fun table s addr _ hrows hrun hpc =>
    ⟨stepWith_of_lookup_eq_none hrun hpc, fun h => ?_⟩⟩
  obtain ⟨e, he⟩ := Option.ne_none_iff_exists'.1 h
  exact stepWith_congr hpc (he.trans (lookup_standard17_of_lookup hrows he).symm)

/-! ## The resolver in arithmetic (R82 to R90) -/

theorem zext16_eq_ofNat (n : Byte) : zext16 n = BitVec.ofNat 16 n.toNat := BitVec.eq_of_toNat_eq (by simp [zext16])
theorem eaZeroPage_eq_ofNat (n : Byte) : eaZeroPage n = BitVec.ofNat 16 n.toNat := zext16_eq_ofNat n

theorem zext16_ofNat (k : Nat) : zext16 (BitVec.ofNat 8 k) = BitVec.ofNat 16 (k % 256) := by
  rw [zext16_eq_ofNat, BitVec.toNat_ofNat]

/-- A sum of two bytes as a byte is the sum of their values, reduced. -/
theorem add_eq_ofNat (n index : Byte) : n + index = BitVec.ofNat 8 (n.toNat + index.toNat) := by
  simp [BitVec.ofNat_add]

/-- The index addition of page zero is modulo 256 (R85, R86). -/
theorem eaZeroPageIndexed_eq_ofNat (n index : Byte) :
    eaZeroPageIndexed n index = BitVec.ofNat 16 ((n.toNat + index.toNat) % 256) := by
  rw [eaZeroPageIndexed, add_eq_ofNat, zext16_ofNat]

/-- The index addition outside page zero is modulo 2^16 (R87, R88, R90). -/
theorem ofNat_add_zext16 (k : Nat) (index : Byte) :
    BitVec.ofNat 16 k + zext16 index = BitVec.ofNat 16 (k + index.toNat) := by
  rw [BitVec.ofNat_add, zext16_eq_ofNat]

theorem byteAt_toNat (s : State) (addr : Word) : byteAt s addr.toNat = memRead s.mem addr := by simp [byteAt]

/-- A 16-bit read as a number (R49). -/
theorem memRead16_eq_ofNat (s : State) (addr : Word) :
    memRead16 s.mem addr =
      BitVec.ofNat 16 ((byteAt s addr.toNat).toNat + 256 * (byteAt s (addr.toNat + 1)).toNat) := by
  rw [byteAt_toNat, byteAt_toNat_add, ← memRead16_toNat, BitVec.ofNat_toNat, BitVec.setWidth_eq]

/-- A pointer read at a number's low byte is the pointer the claims write with that number (R52). -/
theorem zpRead16_ofNat (s : State) (k : Nat) :
    zpRead16 s.mem (BitVec.ofNat 8 k) = BitVec.ofNat 16 (zeroPagePointer s k) := by
  have hnext : BitVec.ofNat 8 k + 1#8 = BitVec.ofNat 8 (k + 1) := (BitVec.ofNat_add k 1).symm
  rw [zeroPagePointer, byteAt, byteAt, ← zext16_ofNat, ← zext16_ofNat, ← hnext, ← zpRead16_toNat,
    BitVec.ofNat_toNat, BitVec.setWidth_eq]

/-- Settles O20, mode by mode. -/
theorem resolverArithmetic : Obligations.ResolverArithmetic := by
  intro s pc b1 w
  have hb1 : (memRead s.mem pc).toNat = b1 := congrArg BitVec.toNat (byteAt_toNat s pc).symm
  have hw : memRead16 s.mem pc = BitVec.ofNat 16 w := memRead16_eq_ofNat s pc
  have hpointer : memRead s.mem pc = BitVec.ofNat 8 b1 := by simp [← hb1]
  refine ⟨rfl, ?_, ?_, ?_, ?_, ?_, ?_, ?_, ?_⟩
  · rw [resolve, eaZeroPage_eq_ofNat, hb1]
  · rw [resolve, eaAbsolute, hw]
  · rw [resolve, eaZeroPageIndexed_eq_ofNat, hb1]
  · rw [resolve, eaZeroPageIndexed_eq_ofNat, hb1]
  · rw [resolve, eaAbsoluteIndexed, hw, ofNat_add_zext16]
  · rw [resolve, eaAbsoluteIndexed, hw, ofNat_add_zext16]
  · rw [resolve, eaIndirectX, add_eq_ofNat, hb1, zpRead16_ofNat]
  · rw [resolve, eaIndirectY, hpointer, zpRead16_ofNat, ofNat_add_zext16]

/-! ## The step (R93 to R99) -/

/-- Settles O30, by the rule that holds under every table. -/
theorem stepRunsDecodedInstruction : Obligations.StepRunsDecodedInstruction := 
  fun _ _ _ _ hrun hpc h => stepWith_of_decode hrun hpc h

/-- Outside Fetching no table is read. -/
theorem stepWith_of_ne_fetching (table : InstrTable) {s : State} (h : s.runState ≠ .fetching) :
    stepWith table s = noStep s := if_neg h

theorem noStep_of_ne_faulted {s : State} (h : s.runState ≠ .faulted) :
    noStep s = .refused (.notFetching s.runState) := by
  unfold noStep
  split
  case h_1 hfaulted _ => exact absurd hfaulted h
  case h_2 => rfl

theorem noStep_of_faulted {s : State} {f : Fault} (h : s.runState = .faulted) (hf : s.fault = some f) :
    noStep s = .fault f := by
  simp [noStep, h, hf]

/-- Settles O39, by the two answers of `noStep`. -/
theorem noStepOutsideFetching : Obligations.NoStepOutsideFetching := by
  intro s hs
  rw [show step s = noStep s from stepWith_of_ne_fetching _ hs]
  exact ⟨noStep_of_ne_faulted, fun h _ hf => noStep_of_faulted h hf, noStep_ne_next s⟩

theorem runLoop_of_ne_fetching (table : InstrTable) (budget : Nat) {s : State} (h : s.runState ≠ .fetching) :
    runLoop table budget s = .next s := by
  cases budget <;> exact if_neg h

/-- Settles O36, over the ends a step can have: only an error leaves Faulted. -/
theorem errorsDiscardTheStep : Obligations.ErrorsDiscardTheStep := by
  intro table s t h hfaulted
  have hloop : ∀ budget, runLoop table budget t = .next t := fun budget =>
    runLoop_of_ne_fetching table budget (by simp [hfaulted])
  obtain ⟨-, ⟨f, rfl⟩ | ⟨addr, -, rfl | ⟨n, v, rfl⟩ | ⟨n, m, rfl⟩⟩⟩ := stepWith_cases h
  · exact ⟨f, rfl, hloop⟩
  · cases hfaulted
  · cases hfaulted
  · cases hfaulted

/-! ### Decode-and-dispatch is the literal cycle (R81, R95) -/

/-- An instruction's meaning begun at `addr` is what the literal execute phase does for its row there, whatever the
row's opcode byte, when its trailing bytes stand after `addr` (R81, R82, R95). -/
theorem exec_eq_performEntry {i : Instr} {addr : Word} {s : State}
    (h : operandBytes i =
      [memRead s.mem (addr + 1#16), memRead s.mem (addr + 1#16 + 1#16)].take (entryOf i).length) (op : Byte) :
    exec i (beginExecute addr s) = .next (performEntry { entryOf i with opcode := op } addr s) := by
  cases i with
  | halt => rfl
  | ldaImmediate n | ldaZeroPage n | ldaZeroPageX n | ldaIndirectX n | ldaIndirectY n
  | adcImmediate n | adcZeroPage n | adcZeroPageX n | adcIndirectX n | adcIndirectY n =>
    obtain rfl : n = memRead s.mem (addr + 1#16) := (List.cons.inj h).1
    rfl
  | ldaAbsolute w | ldaAbsoluteX w | ldaAbsoluteY w | adcAbsolute w | adcAbsoluteX w | adcAbsoluteY w =>
    obtain ⟨hlow, htail⟩ := List.cons.inj h
    obtain rfl : w = memRead16 s.mem (addr + 1#16) := by
      rw [memRead16, ← hlow, ← (List.cons.inj htail).1, wordOf_bytes]
    rfl

/-- The meaning of the instruction an entry stands for is the entry's literal execute phase. -/
theorem exec_of_instrOf {e : Entry} {addr : Word} {s : State} {i : Instr}
    (h : instrOf e (memRead s.mem (addr + 1#16)) (memRead s.mem (addr + 2#16)) = some i) :
    exec i (beginExecute addr s) = .next (performEntry e addr s) := by
  obtain ⟨hrow, hoperands⟩ := instrOf_eq_some h
  have hlen : e.length = (entryOf i).length := (congrArg Entry.length hrow :)
  have hnext : addr + 2#16 = addr + 1#16 + 1#16 := add_ofNat_succ addr 1
  rw [hlen, hnext] at hoperands
  rw [hrow]
  exact exec_eq_performEntry hoperands e.opcode

/-- Settles O32: the two differ only where an entry stands for an instruction, and there they agree. -/
theorem stepIsTheLiteralCycle : Obligations.StepIsTheLiteralCycle := by
  intro table s
  unfold stepWith literalCycle fetch
  by_cases hrun : s.runState = .fetching
  · rw [if_pos hrun, if_pos hrun]
    cases s.pc with
    | none => rfl
    | some addr =>
      cases hlookup : lookup table (memRead s.mem addr) with
      | none => simp only [hlookup]
      | some e =>
        simp only [hlookup]
        cases hinstr : instrOf e (memRead s.mem (addr + 1#16)) (memRead s.mem (addr + 2#16)) with
        | none => rfl
        | some i => exact exec_of_instrOf hinstr
  · rw [if_neg hrun, if_neg hrun]

/-! ### The three ends of a step (R95 to R97, R127) -/

/-- Every row of the default table stands for an instruction and has at most two trailing bytes (R73, R78). -/
theorem standard17_rows_are_instructions (b1 b2 : Byte) :
    standard17.all (fun e => (instrOf e b1 b2).isSome && decide (e.length ≤ 2)) = true := rfl

/-- Three bytes under the default table decode to an instruction unless the first has no row (R79). -/
theorem exists_decode_standard17 {op : Byte} (h : lookup standard17 op ≠ none) (b1 b2 : Byte) :
    ∃ i rest, decode standard17 [op, b1, b2] = .instr i rest := by
  obtain ⟨e, he⟩ := Option.ne_none_iff_exists'.1 h
  have hrow := List.all_eq_true.1 (standard17_rows_are_instructions b1 b2) e (lookup_some he).1
  rw [Bool.and_eq_true, Option.isSome_iff_exists, decide_eq_true_iff] at hrow
  obtain ⟨⟨i, hi⟩, hlen⟩ := hrow
  exact ⟨i, [b1, b2].drop e.length, by simp [decode, he, hi, hlen]⟩

theorem encode_length (i : Instr) : (encode i).length = modeLength (modeOf i) + 1 :=
  congrArg Nat.succ (operandBytes_length i)

/-- The advance of an instruction begun at `addr` leaves PC past its whole encoding (R95). -/
theorem advance_pc_of_begun {i : Instr} {t : State} {addr : Word}
    (ht : t.pc = some (BitVec.ofNat 16 (addr.toNat + 1))) :
    (advance (modeLength (modeOf i)) t).pc = some (BitVec.ofNat 16 (addr.toNat + (encode i).length)) := by
  rw [advance_pc, ht, encode_length, ofNat_toNat_add, ofNat_toNat_add]
  exact congrArg some (add_ofNat_succ addr _).symm

theorem ne_halt_of_operationOf {i : Instr} (h : operationOf i ≠ .halt) : i ≠ .halt := fun hi => h (hi ▸ rfl)

/-- Settles O38: a byte without a row faults; any other begins an instruction, and its meaning halts or advances. -/
theorem controlMovesForwardOnly : Obligations.ControlMovesForwardOnly := by
  intro s t addr hpc h
  obtain ⟨hrun, -⟩ := stepWith_cases h
  by_cases hlookup : lookup standard17 (memRead s.mem addr) = none
  · cases (stepWith_of_lookup_eq_none hrun hpc hlookup).symm.trans h
    exact .inr (.inr ⟨rfl, hpc⟩)
  · obtain ⟨i, rest, hdecode⟩ := exists_decode_standard17 (byteAt_toNat s addr ▸ hlookup)
      (byteAt s (addr.toNat + 1)) (byteAt s (addr.toNat + 2))
    have hexec : exec i (begun s addr) = .next t := (stepWith_of_decode hrun hpc hdecode).symm.trans h
    obtain ⟨rfl, hx⟩ | ⟨hop, v, hx⟩ | ⟨hop, m, hx⟩ := exec_cases i (begun s addr)
    · have hbytes := (encode_of_decode (by decide) hdecode).1
      cases hx.symm.trans hexec
      exact .inr (.inl ⟨rfl, (byteAt_toNat s addr).symm.trans (List.cons.inj hbytes).1.symm, rfl⟩)
    · cases hx.symm.trans hexec
      exact .inl ⟨rfl, i, rest, ne_halt_of_operationOf (by simp [hop]), hdecode, advance_pc_of_begun rfl⟩
    · cases hx.symm.trans hexec
      exact .inl ⟨rfl, i, rest, ne_halt_of_operationOf (by simp [hop]), hdecode, advance_pc_of_begun rfl⟩

end Sys2Proof.Proofs

/-! PROOF. The load family (40_load.md): that an instruction's bytes at PC run it, where its operand stands, and the
whole effect of LDA, for any table's entry and for each of the eight opcodes. -/

namespace Sys2Proof.Proofs

open Sys2Proof.Machine Sys2Proof.Claims

/-! ## The effect of a load (R95, R102) -/

/-- The advance moves on from wherever PC stood before the operation (R95). -/
theorem movedOn_advance (n : Nat) {s t : State} (hpc : t.pc = s.pc) : MovedOn n s (advance n t) := by
  refine ⟨?_, rfl⟩
  simp only [advance_pc, hpc, ofNat_toNat_add]

/-- Zero as the flag updater tests it and as a number. -/
theorem getZ_updateZeroNegative_eq_true_iff (p v : Byte) :
    getZ (updateZeroNegative p v) = true ↔ v.toNat = 0 := by
  rw [getZ_updateZeroNegative, decide_eq_true_iff, ← BitVec.toNat_inj, BitVec.toNat_ofNat, Nat.zero_mod]

theorem getN_updateZeroNegative_eq_true_iff (p v : Byte) :
    getN (updateZeroNegative p v) = true ↔ 128 ≤ v.toNat := by
  rw [getN_updateZeroNegative, getLsbD_seven_eq_true_iff]

theorem untouched_loadAccumulator (v : Byte) (n : Nat) (s : State) :
    Untouched s (advance n (loadAccumulator v s)) :=
  ⟨rfl, rfl, rfl, rfl, fun _ => getLsbD_updateZeroNegative_reserved s.p v, fun _ => rfl⟩

/-- Loading a byte and advancing is the whole effect of LDA, from every state. -/
theorem loadEffect_loadAccumulator (v : Byte) (n : Nat) (s : State) :
    LoadEffect v n s (advance n (loadAccumulator v s)) :=
  ⟨rfl, getZ_updateZeroNegative_eq_true_iff s.p v, getN_updateZeroNegative_eq_true_iff s.p v,
    getC_updateZeroNegative s.p v, getV_updateZeroNegative s.p v, movedOn_advance n rfl,
    untouched_loadAccumulator v n s⟩

/-! ## A fetched entry of any table (R91, R95, R102) -/

/-- A step that fetches an entry does its literal execute phase, whether or not it stands for an instruction. -/
theorem stepWith_of_lookup {table : InstrTable} {s : State} {addr : Word} {e : Entry}
    (hrun : s.runState = .fetching) (hpc : s.pc = some addr) (h : lookup table (memRead s.mem addr) = some e) :
    stepWith table s = .next (performEntry e addr s) := by
  rw [stepIsTheLiteralCycle table s, literalCycle, if_pos hrun]
  simp only [hpc, h]

theorem performEntry_lda_of_resolve {e : Entry} {addr ea : Word} {s : State} (hop : e.operation = .lda)
    (h : resolve e.mode (addr + 1#16) s = some ea) :
    performEntry e addr s = advance e.length (loadAccumulator (memRead s.mem ea) (begun s addr)) := by
  simp only [performEntry, hop, h, begun_eq_beginExecute]

/-- Where Resolve fails, any operation but HALT raises and the step is discarded (R91, R99). -/
theorem performEntry_of_resolve_eq_none {e : Entry} {addr : Word} {s : State} (hop : e.operation ≠ .halt)
    (h : resolve e.mode (addr + 1#16) s = none) :
    performEntry e addr s = failed s (.unsupportedAddressingMode e.opcode addr e.mode) := by
  unfold performEntry
  cases hcase : e.operation with
  | halt => exact absurd hcase hop
  | lda | adc =>
    simp only [h]
    rfl

/-- Settles O18, by the literal execute phase and the two answers of Resolve. -/
theorem ldaEntryOfAnyMode : Obligations.LdaEntryOfAnyMode := by
  intro table s addr e hrun hpc hlookup hop
  rw [stepWith_of_lookup hrun hpc hlookup]
  refine ⟨fun ea hea => ?_, fun hnone => ?_⟩
  · rw [performEntry_lda_of_resolve hop hea]
    exact ⟨_, rfl, loadEffect_loadAccumulator _ _ _⟩
  · rw [performEntry_of_resolve_eq_none (by simp [hop]) hnone]

/-! ## The instruction's bytes (R68, R69, R94) -/

/-- The bytes an instruction encodes to decode to it, and a step that finds them at PC runs it. -/
theorem encoded_of_encode_eq {i : Instr} {bytes : List Byte} (h : encode i = bytes) : Encoded i bytes := by
  subst h
  have hi := instrWellFormed_standard17 i
  have hdecode := decode_encode_append hi []
  rw [List.append_nil] at hdecode
  exact ⟨rfl, hdecode, fun _ _ => stepWith_of_bytesAt hi⟩

/-- The operand the claims name by a number is the two bytes put together (R69). -/
theorem op16_eq_wordOf (lo hi : Byte) : op16 lo hi = wordOf hi lo := by
  have hnamed : named lo hi = (wordOf hi lo).toNat := by
    rw [wordOf_toNat, named]
    omega
  rw [op16, hnamed, BitVec.ofNat_toNat, BitVec.setWidth_eq]

@[simp] theorem lowByte_op16 (lo hi : Byte) : lowByte (op16 lo hi) = lo := by rw [op16_eq_wordOf, lowByte_wordOf]
@[simp] theorem highByte_op16 (lo hi : Byte) : highByte (op16 lo hi) = hi := by rw [op16_eq_wordOf, highByte_wordOf]

/-- The trailing bytes of an F2 instruction are the two bytes its operand was put together from (R69). -/
theorem encoded_of_encode_op16 {i : Instr} {op lo hi : Byte}
    (h : encode i = [op, lowByte (op16 lo hi), highByte (op16 lo hi)]) : Encoded i [op, lo, hi] :=
  encoded_of_encode_eq (by rw [h, lowByte_op16, highByte_op16])

/-! ## Where the operand stands, as a number (R83 to R90) -/

theorem eaAbsoluteIndexed_op16 (lo hi index : Byte) :
    eaAbsoluteIndexed (op16 lo hi) index = BitVec.ofNat 16 (named lo hi + index.toNat) :=
  ofNat_add_zext16 (named lo hi) index

/-- The pointer of IndirectX wraps in page zero, as the claims' pointer does (R89). -/
theorem eaIndirectX_eq_ofNat (s : State) (n x : Byte) :
    eaIndirectX s.mem n x = BitVec.ofNat 16 (zeroPagePointer s (n.toNat + x.toNat)) := by
  rw [eaIndirectX, add_eq_ofNat, zpRead16_ofNat]

/-- IndirectY adds Y to the pointer's word modulo 2^16 (R90). -/
theorem eaIndirectY_eq_ofNat (s : State) (n y : Byte) :
    eaIndirectY s.mem n y = BitVec.ofNat 16 (zeroPagePointer s n.toNat + y.toNat) := by
  have hbase : zpRead16 s.mem n = BitVec.ofNat 16 (zeroPagePointer s n.toNat) := by
    rw [← zpRead16_ofNat, BitVec.ofNat_toNat, BitVec.setWidth_eq]
  rw [eaIndirectY, hbase, ofNat_add_zext16]

/-! ## LDA, opcode by opcode (R103 to R110) -/

/-- A meaning that loads the byte at `ea` has the whole effect of LDA on the byte at `ea`'s number. -/
theorem exists_loadEffect_of_exec {i : Instr} {s : State} {n k : Nat} {ea : Word}
    (hexec : exec i s = .next (advance n (loadAccumulator (memRead s.mem ea) s))) (hea : ea = BitVec.ofNat 16 k) :
    ∃ t, exec i s = .next t ∧ LoadEffect (byteAt s k) n s t := by
  subst hea
  exact ⟨_, hexec, loadEffect_loadAccumulator _ n s⟩

/-- Settles O1: the byte loaded is the operand itself. -/
theorem ldaImmediateLoadsItsByte : Obligations.LdaImmediateLoadsItsByte := fun n =>
  ⟨encoded_of_encode_eq rfl, fun s => ⟨_, rfl, loadEffect_loadAccumulator n 1 s⟩⟩

/-- Settles O2, by the zero-extended operand. -/
theorem ldaZeroPageLoads : Obligations.LdaZeroPageLoads := fun n =>
  ⟨encoded_of_encode_eq rfl, fun _ => exists_loadEffect_of_exec rfl (eaZeroPage_eq_ofNat n)⟩

/-- Settles O3, by the index addition modulo 256. -/
theorem ldaZeroPageXLoads : Obligations.LdaZeroPageXLoads := fun n =>
  ⟨encoded_of_encode_eq rfl, fun s => exists_loadEffect_of_exec rfl (eaZeroPageIndexed_eq_ofNat n s.x)⟩

/-- Settles O4: the operand is the address. -/
theorem ldaAbsoluteLoads : Obligations.LdaAbsoluteLoads := fun _ _ =>
  ⟨encoded_of_encode_op16 rfl, fun _ => exists_loadEffect_of_exec rfl rfl⟩

/-- Settles O5, by the addition of X modulo 2^16. -/
theorem ldaAbsoluteXLoads : Obligations.LdaAbsoluteXLoads := fun lo hi =>
  ⟨encoded_of_encode_op16 rfl, fun s => exists_loadEffect_of_exec rfl (eaAbsoluteIndexed_op16 lo hi s.x)⟩

/-- Settles O6, by the addition of Y modulo 2^16. -/
theorem ldaAbsoluteYLoads : Obligations.LdaAbsoluteYLoads := fun lo hi =>
  ⟨encoded_of_encode_op16 rfl, fun s => exists_loadEffect_of_exec rfl (eaAbsoluteIndexed_op16 lo hi s.y)⟩

/-- Settles O7, by the pointer indexed with X before it is read. -/
theorem ldaIndirectXLoads : Obligations.LdaIndirectXLoads := fun n =>
  ⟨encoded_of_encode_eq rfl, fun s => exists_loadEffect_of_exec rfl (eaIndirectX_eq_ofNat s n s.x)⟩

/-- Settles O8, by the word at the pointer indexed with Y after it is read. -/
theorem ldaIndirectYLoads : Obligations.LdaIndirectYLoads := fun n =>
  ⟨encoded_of_encode_eq rfl, fun s => exists_loadEffect_of_exec rfl (eaIndirectY_eq_ofNat s n s.y)⟩

end Sys2Proof.Proofs

/-! PROOF. The arithmetic family (41_arithmetic.md): the result and the flags of ADC as numbers, their equivalent forms
and readings, and the whole effect of ADC, for any table's entry and for each of the eight opcodes. -/

namespace Sys2Proof.Proofs

open Sys2Proof.Machine Sys2Proof.Claims

/-! ## The result and the flags as numbers (R111 to R113) -/

theorem toNat_adcResult (a m : Byte) (c : Bool) : (adcResult a m c).toNat = adcSum a m c % 256 :=
  BitVec.toNat_ofNat ..

/-- Two bytes share bit 7 exactly when they stand on the same side of 128. -/
theorem getLsbD_seven_eq_iff {v w : Byte} : v.getLsbD 7 = w.getLsbD 7 ↔ (128 ≤ v.toNat ↔ 128 ≤ w.toNat) := by
  rw [Bool.eq_iff_iff, getLsbD_seven_eq_true_iff, getLsbD_seven_eq_true_iff]

theorem adcOverflow_eq_true_iff_toNat {a m : Byte} {c : Bool} :
    adcOverflow a m c = true ↔
      (128 ≤ a.toNat ↔ 128 ≤ m.toNat) ∧ ¬ (128 ≤ (adcResult a m c).toNat ↔ 128 ≤ a.toNat) := by
  rw [adcOverflow_eq_true_iff, ne_eq, getLsbD_seven_eq_iff, getLsbD_seven_eq_iff]

/-! ## The equivalent forms of carry and overflow (R112, R113) -/

/-- The carry is bit 8 of the sum, which fits in nine bits (R112). -/
theorem adcCarry_eq_bit (a m : Byte) (c : Bool) :
    adcCarry a m c = (BitVec.ofNat 9 (adcSum a m c)).getLsbD 8 := by
  have hsum := adcSum_le a m c
  rw [← BitVec.msb_eq_getLsbD_last, BitVec.msb_eq_decide, adcCarry, decide_eq_decide, BitVec.toNat_ofNat]
  omega

/-- Of three bits, the first two agree and the third differs exactly when it differs from both. -/
theorem decide_eq_and_ne_eq_xor_and_xor (a m r : Bool) :
    decide (a = m ∧ r ≠ a) = ((a ^^ r) && (m ^^ r)) := by
  revert a m r
  decide

/-- The overflow is bit 7 of the operands' differences from the result (R113). -/
theorem adcOverflow_eq_bit (a m : Byte) (c : Bool) :
    adcOverflow a m c = ((a ^^^ adcResult a m c) &&& (m ^^^ adcResult a m c)).getLsbD 7 := by
  rw [adcOverflow, decide_eq_and_ne_eq_xor_and_xor, BitVec.getLsbD_and, BitVec.getLsbD_xor, BitVec.getLsbD_xor]

/-- Settles O22, by the two forms of each flag. -/
theorem adcCarryAndOverflowForms : Obligations.AdcCarryAndOverflowForms := by
  intro m s
  simp only [addWithCarry_p, getC_adcStatus, getV_adcStatus]
  exact ⟨adcCarry_eq_true_iff, adcCarry_eq_bit _ _ _, adcOverflow_eq_true_iff, adcOverflow_eq_bit _ _ _⟩

/-! ## The unsigned and the signed reading (R125) -/

/-- Result and carry together are the exact sum (R125 (b)). -/
theorem adcResult_add_adcCarry (a m : Byte) (c : Bool) :
    (adcResult a m c).toNat + 256 * (adcCarry a m c).toNat = adcSum a m c := by
  have hsum := adcSum_le a m c
  rw [toNat_adcResult]
  cases hcarry : adcCarry a m c with
  | true =>
    have hover := adcCarry_eq_true_iff.mp hcarry
    rw [Bool.toNat_true]
    omega
  | false =>
    have hfits : ¬ 0xFF < adcSum a m c := of_decide_eq_false hcarry
    rw [Bool.toNat_false]
    omega

/-- The signed reading of a byte subtracts 256 from 128 on. -/
theorem toInt_eq_ite (v : Byte) : v.toInt = if 128 ≤ v.toNat then (v.toNat : Int) - 256 else v.toNat := by
  rw [BitVec.toInt_eq_toNat_cond]
  split <;> split <;> omega

/-- The exact sum of the signed readings of A and M and the carry (R125 (c)). -/
def signedSum (a m : Byte) (c : Bool) : Int := a.toInt + m.toInt + (c.toNat : Int)

/-- The overflow says that the signed sum does not fit in a signed byte (R125 (c)). -/
theorem adcOverflow_eq_true_iff_signedSum {a m : Byte} {c : Bool} :
    adcOverflow a m c = true ↔ signedSum a m c < -128 ∨ 127 < signedSum a m c := by
  have ha := a.isLt
  have hm := m.isLt
  have hc := c.toNat_le
  rw [adcOverflow_eq_true_iff_toNat, toNat_adcResult, adcSum, signedSum, toInt_eq_ite, toInt_eq_ite]
  omega

theorem toInt_adcResult_of_not_overflow {a m : Byte} {c : Bool} (h : adcOverflow a m c = false) :
    (adcResult a m c).toInt = signedSum a m c := by
  have ha := a.isLt
  have hm := m.isLt
  have hc := c.toNat_le
  have hfits : ¬ (signedSum a m c < -128 ∨ 127 < signedSum a m c) := by
    rw [← adcOverflow_eq_true_iff_signedSum, h]
    exact Bool.false_ne_true
  rw [signedSum, toInt_eq_ite, toInt_eq_ite] at hfits ⊢
  rw [toInt_eq_ite, toNat_adcResult, adcSum]
  omega

/-- Settles O23, by the two readings of the result. -/
theorem adcUnsignedAndSignedReadings : Obligations.AdcUnsignedAndSignedReadings := by
  intro m s
  simp only [addWithCarry_p, getC_adcStatus, getV_adcStatus]
  exact ⟨adcResult_add_adcCarry _ _ _, adcOverflow_eq_true_iff_signedSum, toInt_adcResult_of_not_overflow⟩

/-! ## The effect of an addition (R95, R111) -/

theorem untouched_addWithCarry (m : Byte) (n : Nat) (s : State) : Untouched s (advance n (addWithCarry m s)) :=
  ⟨rfl, rfl, rfl, rfl, fun _ => getLsbD_adcStatus_reserved s.p s.a m, fun _ => rfl⟩

/-- Adding a byte and advancing is the whole effect of ADC, from every state: C and V are written before the flag
updater, which leaves them and sets Z and N from the result. -/
theorem addEffect_addWithCarry (m : Byte) (n : Nat) (s : State) :
    AddEffect m n s (advance n (addWithCarry m s)) := by
  refine ⟨toNat_adcResult s.a m (getC s.p), ?carry, ?overflow, getZ_updateZeroNegative_eq_true_iff _ _,
    getN_updateZeroNegative_eq_true_iff _ _, movedOn_advance n rfl, untouched_addWithCarry m n s⟩
  case carry =>
    rw [advance_p, addWithCarry_p, getC_adcStatus]
    exact adcCarry_eq_true_iff
  case overflow =>
    rw [advance_p, addWithCarry_p, getV_adcStatus]
    exact adcOverflow_eq_true_iff_toNat

/-! ## A fetched entry of any table (R95, R111) -/

theorem performEntry_adc_of_resolve {e : Entry} {addr ea : Word} {s : State} (hop : e.operation = .adc)
    (h : resolve e.mode (addr + 1#16) s = some ea) :
    performEntry e addr s = advance e.length (addWithCarry (memRead s.mem ea) (begun s addr)) := by
  simp only [performEntry, hop, h, begun_eq_beginExecute]

/-- Settles O19, by the literal execute phase and the two answers of Resolve. -/
theorem adcEntryOfAnyMode : Obligations.AdcEntryOfAnyMode := by
  intro table s addr e hrun hpc hlookup hop
  rw [stepWith_of_lookup hrun hpc hlookup]
  refine ⟨fun ea hea => ?_, fun hnone => ?_⟩
  · rw [performEntry_adc_of_resolve hop hea]
    exact ⟨_, rfl, addEffect_addWithCarry _ _ _⟩
  · rw [performEntry_of_resolve_eq_none (by simp [hop]) hnone]

/-! ## ADC, opcode by opcode (R117 to R124) -/

/-- A meaning that adds the byte at `ea` has the whole effect of ADC on the byte at `ea`'s number. -/
theorem exists_addEffect_of_exec {i : Instr} {s : State} {n k : Nat} {ea : Word}
    (hexec : exec i s = .next (advance n (addWithCarry (memRead s.mem ea) s))) (hea : ea = BitVec.ofNat 16 k) :
    ∃ t, exec i s = .next t ∧ AddEffect (byteAt s k) n s t := by
  subst hea
  exact ⟨_, hexec, addEffect_addWithCarry _ n s⟩

/-- Settles O9: the byte added is the operand itself. -/
theorem adcImmediateAdds : Obligations.AdcImmediateAdds := fun n =>
  ⟨encoded_of_encode_eq rfl, fun s => ⟨_, rfl, addEffect_addWithCarry n 1 s⟩⟩

/-- Settles O10, by the zero-extended operand. -/
theorem adcZeroPageAdds : Obligations.AdcZeroPageAdds := fun n =>
  ⟨encoded_of_encode_eq rfl, fun _ => exists_addEffect_of_exec rfl (eaZeroPage_eq_ofNat n)⟩

/-- Settles O11, by the index addition modulo 256. -/
theorem adcZeroPageXAdds : Obligations.AdcZeroPageXAdds := fun n =>
  ⟨encoded_of_encode_eq rfl, fun s => exists_addEffect_of_exec rfl (eaZeroPageIndexed_eq_ofNat n s.x)⟩

/-- Settles O12: the operand is the address. -/
theorem adcAbsoluteAdds : Obligations.AdcAbsoluteAdds := fun _ _ =>
  ⟨encoded_of_encode_op16 rfl, fun _ => exists_addEffect_of_exec rfl rfl⟩

/-- Settles O13, by the addition of X modulo 2^16. -/
theorem adcAbsoluteXAdds : Obligations.AdcAbsoluteXAdds := fun lo hi =>
  ⟨encoded_of_encode_op16 rfl, fun s => exists_addEffect_of_exec rfl (eaAbsoluteIndexed_op16 lo hi s.x)⟩

/-- Settles O14, by the addition of Y modulo 2^16. -/
theorem adcAbsoluteYAdds : Obligations.AdcAbsoluteYAdds := fun lo hi =>
  ⟨encoded_of_encode_op16 rfl, fun s => exists_addEffect_of_exec rfl (eaAbsoluteIndexed_op16 lo hi s.y)⟩

/-- Settles O15, by the pointer indexed with X before it is read. -/
theorem adcIndirectXAdds : Obligations.AdcIndirectXAdds := fun n =>
  ⟨encoded_of_encode_eq rfl, fun s => exists_addEffect_of_exec rfl (eaIndirectX_eq_ofNat s n s.x)⟩

/-- Settles O16, by the word at the pointer indexed with Y after it is read. -/
theorem adcIndirectYAdds : Obligations.AdcIndirectYAdds := fun n =>
  ⟨encoded_of_encode_eq rfl, fun s => exists_addEffect_of_exec rfl (eaIndirectY_eq_ofNat s n s.y)⟩

end Sys2Proof.Proofs

/-! PROOF. The control family (42_control.md): HALT changes nothing but the run state, and a step that fetches a halt
leaves PC where the fetch put it. -/

namespace Sys2Proof.Proofs

open Sys2Proof.Machine Sys2Proof.Claims

theorem untouched_haltRun (s : State) : Untouched s (haltRun s) :=
  ⟨rfl, rfl, rfl, rfl, fun _ _ _ => rfl, fun _ => rfl⟩

/-- Fetching changes only PC and the run state (R94). -/
theorem untouched_haltRun_begun (s : State) (addr : Word) : Untouched s (haltRun (begun s addr)) :=
  untouched_haltRun (begun s addr)

/-- A halt entry never resolves its mode: its execute phase is the halt alone (R96, R126). -/
theorem performEntry_halt {e : Entry} (hop : e.operation = .halt) (addr : Word) (s : State) :
    performEntry e addr s = haltRun (begun s addr) := by
  simp only [performEntry, hop, begun_eq_beginExecute]

/-- Under every table, a step that fetches a halt entry ends the run after the fetch increment (R94, R96). -/
theorem stepWith_of_lookup_halt {table : InstrTable} {s : State} {addr : Word} {e : Entry}
    (hrun : s.runState = .fetching) (hpc : s.pc = some addr) (h : lookup table (memRead s.mem addr) = some e)
    (hop : e.operation = .halt) : stepWith table s = .next (haltRun (begun s addr)) := by
  rw [stepWith_of_lookup hrun hpc h, performEntry_halt hop]

theorem lookup_standard17_zero : lookup standard17 0x00 = some ⟨0x00, .halt, .none, 0⟩ := rfl

/-- Settles O17, by the halt alone from any state and by the halt entry the byte 0x00 fetches. -/
theorem haltEndsTheRun : Obligations.HaltEndsTheRun := by
  refine ⟨encoded_of_encode_eq rfl, fun s => ?exec, fun s addr hrun hpc hbyte => ?step⟩
  case exec => exact ⟨haltRun s, rfl, rfl, rfl, rfl, rfl, untouched_haltRun s⟩
  case step =>
    have hlookup : lookup standard17 (memRead s.mem addr) = some ⟨0x00, .halt, .none, 0⟩ := by
      rw [hbyte, lookup_standard17_zero]
    exact ⟨haltRun (begun s addr), stepWith_of_lookup_halt hrun hpc hlookup rfl, rfl, rfl, rfl, rfl,
      untouched_haltRun_begun s addr⟩

end Sys2Proof.Proofs

/-! PROOF. The exceptions family (60_exceptions.md): what raises each of the three errors, and that a Faulted state
answers its fault record. -/

namespace Sys2Proof.Proofs

open Sys2Proof.Machine Sys2Proof.Claims

/-! ## IllegalOpcode (R131) -/

/-- Settles O34, by the rule for a byte with no row under every table. -/
theorem illegalOpcodeRecordsByteAndAddress : Obligations.IllegalOpcodeRecordsByteAndAddress :=
  fun _ _ _ hrun hpc hlookup => ⟨stepWith_of_lookup_eq_none hrun hpc hlookup, rfl⟩

/-! ## UnsupportedAddressingMode (R132) -/

/-- A step that fetches an entry in mode None of an operation other than HALT raises, whatever the table (R91, R99). -/
theorem stepWith_of_lookup_mode_none {table : InstrTable} {s : State} {addr : Word} {e : Entry}
    (hrun : s.runState = .fetching) (hpc : s.pc = some addr) (hlookup : lookup table (memRead s.mem addr) = some e)
    (hop : e.operation ≠ .halt) (hmode : e.mode = .none) :
    stepWith table s = .next (failed s (.unsupportedAddressingMode (memRead s.mem addr) addr .none)) := by
  rw [stepWith_of_lookup hrun hpc hlookup, performEntry_of_resolve_eq_none hop (resolve_eq_none_iff.2 hmode),
    (lookup_some hlookup).2, hmode]

/-- A record that an entry's execute phase leaves where there was none comes from resolving mode None. -/
theorem performEntry_fault_eq_some {e : Entry} {addr : Word} {s : State} {f : Fault} (hs : s.fault = none)
    (h : (performEntry e addr s).fault = some f) :
    e.operation ≠ .halt ∧ e.mode = .none ∧ f = .unsupportedAddressingMode e.opcode addr e.mode := by
  obtain ⟨-, hx⟩ | ⟨-, v, hx⟩ | ⟨-, m, hx⟩ | ⟨hop, hmode, hx⟩ := performEntry_cases e addr s
  · simp [hx, hs] at h
  · simp [hx, hs] at h
  · simp [hx, hs] at h
  · rw [hx, raise_fault] at h
    exact ⟨hop, hmode, (Option.some.inj h).symm⟩

/-- A fetch with PC undefined raises, whatever the table (log entry 3). -/
theorem stepWith_of_pc_eq_none (table : InstrTable) {s : State} (hrun : s.runState = .fetching) (hpc : s.pc = none) :
    stepWith table s = .next (failed s .pcUndefined) := by
  rw [stepIsTheLiteralCycle table s, literalCycle, if_pos hrun, hpc]
  rfl

/-- A record that a step leaves where there was none is one of the three errors of the spec, raised at its place: PC
undefined, a byte with no row, an LDA or ADC entry in mode None (R131 to R133). -/
theorem stepWith_fault_eq_some {table : InstrTable} {s t : State} {f : Fault} (hs : s.fault = none)
    (h : stepWith table s = .next t) (hf : t.fault = some f) :
    (s.pc = none ∧ f = .pcUndefined) ∨
    ∃ addr, s.pc = some addr ∧
      ((lookup table (memRead s.mem addr) = none ∧ f = .illegalOpcode (memRead s.mem addr) addr) ∨
       ∃ e, lookup table (memRead s.mem addr) = some e ∧ e.operation ≠ .halt ∧ e.mode = .none ∧
        f = .unsupportedAddressingMode (memRead s.mem addr) addr .none) := by
  obtain ⟨hrun, -⟩ := stepWith_cases h
  cases hpc : s.pc with
  | none =>
    cases (stepWith_of_pc_eq_none table hrun hpc).symm.trans h
    exact .inl ⟨rfl, (Option.some.inj hf).symm⟩
  | some addr =>
    refine .inr ⟨addr, rfl, ?_⟩
    cases hlookup : lookup table (memRead s.mem addr) with
    | none =>
      cases (stepWith_of_lookup_eq_none hrun hpc hlookup).symm.trans h
      exact .inl ⟨rfl, (Option.some.inj hf).symm⟩
    | some e =>
      cases (stepWith_of_lookup hrun hpc hlookup).symm.trans h
      obtain ⟨hop, hmode, rfl⟩ := performEntry_fault_eq_some hs hf
      exact .inr ⟨e, rfl, hop, hmode, by rw [(lookup_some hlookup).2, hmode]⟩

/-- A step that raises UnsupportedAddressingMode fetched an LDA or ADC entry in mode None, and records it. -/
theorem stepWith_unsupportedAddressingMode {table : InstrTable} {s t : State} {op : Byte} {addr : Word} {mode : Mode}
    (hs : s.fault = none) (h : stepWith table s = .next t)
    (hf : t.fault = some (.unsupportedAddressingMode op addr mode)) :
    s.pc = some addr ∧ op = memRead s.mem addr ∧ mode = .none ∧
      ∃ e, lookup table (memRead s.mem addr) = some e ∧ e.operation ≠ .halt ∧ e.mode = .none := by
  obtain ⟨-, hrecord⟩ | ⟨pc, hpc, ⟨-, hrecord⟩ | ⟨e, hlookup, hop, hmode, hrecord⟩⟩ := stepWith_fault_eq_some hs h hf
  · cases hrecord
  · cases hrecord
  · cases hrecord
    exact ⟨hpc, rfl, rfl, e, hlookup, hop, hmode⟩

/-- In a well-formed table only HALT has mode None (R74). -/
theorem operation_eq_halt_of_mode_eq_none {table : InstrTable} (ht : tableWellFormed table = true) {e : Entry}
    (he : e ∈ table) (hmode : e.mode = .none) : e.operation = .halt := by
  simp only [tableWellFormed, Bool.and_eq_true] at ht
  obtain ⟨⟨-, hnone⟩, -⟩ := ht
  exact (of_decide_eq_true (List.all_eq_true.1 hnone e he)).1 hmode

/-- Settles O35: the raising step by its entry, the converse by the ends of a step that leave a record, and the last
clause because a well-formed table has no such entry. -/
theorem unsupportedModeOnlyFromNoneEntries : Obligations.UnsupportedModeOnlyFromNoneEntries := by
  refine ⟨fun _ _ _ _ hrun hpc hlookup hop hmode => ⟨stepWith_of_lookup_mode_none hrun hpc hlookup hop hmode, rfl⟩,
    fun _ _ _ _ _ _ => stepWith_unsupportedAddressingMode, ?never⟩
  case never =>
    intro table s t ht hs h op addr mode hf
    obtain ⟨-, -, -, e, hlookup, hop, hmode⟩ := stepWith_unsupportedAddressingMode hs h hf
    exact hop (operation_eq_halt_of_mode_eq_none ht (lookup_some hlookup).1 hmode)

/-! ## PcUndefined (R133) -/

/-- A run that begins with PC undefined raises before its loop takes a step. -/
theorem run_of_pc_eq_none (c : Config) (budget : Nat) {s : State} (hs : Stopped s) (hpc : s.pc = none) :
    run c budget s = .next (failed s .pcUndefined) := by
  have hstart : startRun s = .next (failed s .pcUndefined) := by
    rw [startRun, whenStopped_allowed hs, hpc]
    rfl
  have hfaulted : (failed s .pcUndefined).runState ≠ .fetching := by simp [failed]
  rw [run, hstart, andThen, runLoop_of_ne_fetching _ _ hfaulted]

/-- Settles O51: a fresh core is Idle with PC undefined. -/
theorem runBeforeResetRaises : Obligations.RunBeforeResetRaises := by
  refine ⟨rfl, fun c budget s => run_of_pc_eq_none c budget, fun c budget s h => ?_⟩
  obtain ⟨-, rfl⟩ := construct_next h
  exact run_of_pc_eq_none c budget (.inl rfl) rfl

/-! ## A Faulted state (R138) -/

/-- On a Faulted state no host operation begins: the record is answered in its place. -/
theorem whenStopped_of_faulted {s : State} {f : Fault} (hrun : s.runState = .faulted) (hf : s.fault = some f)
    (k : Host.Outcome State Fault Refusal) : whenStopped s k = .fault f := by
  simp only [whenStopped, hrun, hf]

/-- Settles O54: each operation begins with that guard, and the accessors do not have it. -/
theorem faultedInstanceAnswersItsFault : Obligations.FaultedInstanceAnswersItsFault := by
  intro c image budget s f hrun hf
  have hload : load c image s = .fault f := whenStopped_of_faulted hrun hf _
  have hstart : startRun s = .fault f := whenStopped_of_faulted hrun hf _
  refine ⟨hload, whenStopped_of_faulted hrun hf _, ?run, ?loadAndRun, rfl, rfl, rfl, rfl, rfl, rfl⟩
  case run => rw [run, hstart, andThen]
  case loadAndRun => rw [loadAndRun, hload, andThen]

end Sys2Proof.Proofs

/-! PROOF. The reset and hazards family (70_reset_and_hazards.md): what each host operation leaves, that all of them
keep the machine invariant, and that a run is its steps and ends. -/

namespace Sys2Proof.Proofs

open Sys2Proof.Machine Sys2Proof.Claims

/-! ## The machine invariant over the host interface (R33, R37, R38) -/

theorem powerOn_inv : State.powerOn.Inv := ⟨rfl, by decide⟩

/-- In Idle or Halted there is no fault record (R38). -/
theorem fault_eq_none_of_stopped {s : State} (hs : s.Inv) (hstop : Stopped s) : s.fault = none := by
  obtain ⟨-, hrecord, -⟩ := hs
  obtain hrun | hrun := hstop
  · simpa [hrun] using hrecord
  · simpa [hrun] using hrecord

theorem construct_inv {c : Config} {t : State} (h : construct c = .next t) : t.Inv := by
  obtain ⟨-, rfl⟩ := construct_next h
  exact powerOn_inv

theorem load_keeps_inv {c : Config} {image : List Byte} {s t : State} (hs : s.Inv)
    (h : load c image s = .next t) : t.Inv := by
  obtain ⟨-, -, rfl⟩ := load_next h
  obtain ⟨hmem, hrest⟩ := hs
  exact ⟨loadedMemory_wf hmem c image, hrest⟩

theorem resetOp_keeps_inv {c : Config} {s t : State} (hs : s.Inv) (h : resetOp c s = .next t) : t.Inv := by
  obtain ⟨hstop, rfl⟩ := resetOp_next h
  have hnone := fault_eq_none_of_stopped hs hstop
  obtain ⟨hmem, -⟩ := hs
  simp [State.Inv, hmem, hnone]

/-- A run begins Fetching with PC defined, or has raised with its record (R133, R152). -/
theorem startRun_keeps_inv {s t : State} (hs : s.Inv) (h : startRun s = .next t) : t.Inv := by
  obtain ⟨hstop, ⟨-, rfl⟩ | ⟨addr, hpc, rfl⟩⟩ := startRun_next h
  · obtain ⟨hmem, -⟩ := hs
    simp [State.Inv, hmem]
  · have hnone := fault_eq_none_of_stopped hs hstop
    obtain ⟨hmem, -⟩ := hs
    simp [State.Inv, hmem, hpc, hnone]

theorem run_keeps_inv {c : Config} {budget : Nat} {s t : State} (hs : s.Inv) (h : run c budget s = .next t) : t.Inv :=
  run_keeps (fun _ _ => startRun_keeps_inv) (fun _ _ => stepWith_keeps_inv) hs h

theorem loadAndRun_keeps_inv {c : Config} {image : List Byte} {budget : Nat} {s t : State} (hs : s.Inv)
    (h : loadAndRun c image budget s = .next t) : t.Inv := by
  obtain ⟨_, _, hload, hreset, hrun⟩ := loadAndRun_next h
  exact run_keeps_inv (resetOp_keeps_inv (load_keeps_inv hs hload) hreset) hrun

/-- Settles O59, operation by operation. -/
theorem hostOperationsKeepInv : Obligations.HostOperationsKeepInv := by
  intro c t
  refine ⟨construct_inv, ?_⟩
  rintro image budget s hs (h | h | h | h | h | h)
  · exact load_keeps_inv hs h
  · exact resetOp_keeps_inv hs h
  · exact startRun_keeps_inv hs h
  · exact stepWith_keeps_inv hs h
  · exact run_keeps_inv hs h
  · exact loadAndRun_keeps_inv hs h

/-- Settles O43, by induction on how the host reached the state. -/
theorem hostReachableStatesHaveInv : Obligations.HostReachableStatesHaveInv := by
  intro c s h
  induction h with
  | constructed h => exact construct_inv h
  | loaded _ h ih => exact load_keeps_inv ih h
  | resetDone _ h ih => exact resetOp_keeps_inv ih h
  | runStarted _ h ih => exact startRun_keeps_inv ih h
  | stepped _ h ih => exact stepWith_keeps_inv ih h

/-! ## Construction (R147) -/

/-- A byte never written reads 0 (R62, R147). -/
@[simp] theorem memRead_nil (addr : Word) : memRead [] addr = 0x00 := rfl

/-- Settles O45: the power-on state, or the refusal of the table. -/
theorem constructGivesPowerOnState : Obligations.ConstructGivesPowerOnState := by
  intro c
  refine ⟨fun h => by simp [construct, h], fun h => ⟨State.powerOn, by simp [construct, h], ?_⟩⟩
  exact ⟨rfl, rfl, rfl, rfl, rfl, rfl, rfl, rfl, memRead_nil⟩

/-! ## Reset (R151) -/

theorem resetOp_of_stopped (c : Config) {s : State} (hs : Stopped s) : resetOp c s = .next (resetState c s) :=
  whenStopped_allowed hs _

/-- Settles O46: PC is the word read at the vector, and the other fields are `reset()`'s own. -/
theorem resetRestoresRegisters : Obligations.ResetRestoresRegisters := by
  intro c s hs
  refine ⟨resetState c s, resetOp_of_stopped c hs, rfl, rfl, rfl, rfl, rfl, rfl, rfl, rfl,
    memRead16 s.mem c.resetVectorAddr, rfl, ?_⟩
  rw [memRead16_toNat, byteAt_toNat, byteAt_toNat_add]

theorem powerOn_stopped : Stopped State.powerOn := .inl rfl

theorem memRead16_nil (addr : Word) : memRead16 [] addr = 0x0000 := by
  rw [memRead16, memRead_nil, memRead_nil]
  decide

/-- The vector of an empty memory is two zero bytes, wherever it is (vector H4). -/
theorem resetState_powerOn (c : Config) : resetState c State.powerOn = State.reset := by
  rw [resetState, State.powerOn, memRead16_nil]
  rfl

/-- Settles O47: an empty memory holds zeros, at the vector and everywhere else. -/
theorem freshResetIsStateReset : Obligations.FreshResetIsStateReset :=
  ⟨fun c => by rw [resetOp_of_stopped c powerOn_stopped, resetState_powerOn], rfl,
    fun _ rest => decode_encode_append (instrWellFormed_standard17 .halt) rest⟩

/-! ## Load (R148 to R150) -/

theorem load_of_fits {c : Config} {image : List Byte} {s : State} (hs : Stopped s)
    (hfit : image.length ≤ 0x10000 - c.programLoadAddr.toNat) : load c image s = .next (loadedState c image s) := by
  have hfits : imageFits c image = true := decide_eq_true hfit
  rw [load, whenStopped_allowed hs, if_pos hfits]

theorem load_of_not_fits {c : Config} {image : List Byte} {s : State} (hs : Stopped s)
    (hlong : 0x10000 - c.programLoadAddr.toNat < image.length) :
    load c image s = .refused (.imageTooLong image.length) := by
  have hfits : ¬ imageFits c image = true := by simpa [imageFits] using hlong
  rw [load, whenStopped_allowed hs, if_neg hfits]

/-- Settles O49, by the two answers of `load` in Idle or Halted. -/
theorem loadRefusesLongImages : Obligations.LoadRefusesLongImages := fun _ _ _ hs =>
  ⟨load_of_not_fits hs, fun hfit => ⟨_, load_of_fits hs hfit⟩⟩

/-- A word write reads back (R49, R50). -/
theorem memRead16_memWrite16 {m : Memory} (hm : m.wf = true) (addr w : Word) :
    memRead16 (memWrite16 m addr w) addr = w := by
  have hnext : addr ≠ addr + 1#16 := by simp
  rw [memRead16, memRead_memWrite16 hm, memRead_memWrite16 hm, if_pos rfl, if_neg hnext, if_pos rfl, wordOf_bytes]

/-- After a load the vector holds the load address, whatever the image put there (R149). -/
theorem memRead16_loadedMemory {m : Memory} (hm : m.wf = true) (c : Config) (image : List Byte) :
    memRead16 (loadedMemory c m image) c.resetVectorAddr = c.programLoadAddr :=
  memRead16_memWrite16 (placeBytes_wf hm _ _) _ _

/-- Beside the vector, loaded memory is what copying the image leaves (R149). -/
theorem memRead_loadedMemory_of_ne {c : Config} {m : Memory} (hm : m.wf = true) (image : List Byte) {addr : Word}
    (hlow : addr ≠ c.resetVectorAddr) (hhigh : addr ≠ c.resetVectorAddr + 1#16) :
    memRead (loadedMemory c m image) addr = memRead (placeBytes m c.programLoadAddr image) addr := by
  rw [loadedMemory, memRead_memWrite16 (placeBytes_wf hm _ _), if_neg hhigh, if_neg hlow]

/-- An address as a number from a base on, without coming round the address space. -/
theorem eq_add_ofNat_iff {addr base : Word} {k : Nat} (hk : base.toNat + k < 65536) :
    addr = base + BitVec.ofNat 16 k ↔ addr.toNat = base.toNat + k := by
  rw [← ofNat_toNat_add, ← BitVec.toNat_inj, BitVec.toNat_ofNat, Nat.mod_eq_of_lt hk]

/-- Settles O48: a load writes memory alone, and there the vector after the image. -/
theorem loadCopiesImageAndVector : Obligations.LoadCopiesImageAndVector := by
  intro c image s hs hm hfit
  have hbase := c.programLoadAddr.isLt
  have hinside : ∀ k < image.length, c.programLoadAddr.toNat + k < 65536 := fun k hk => by omega
  refine ⟨loadedState c image s, load_of_fits hs hfit, rfl, memRead16_loadedMemory hm c image, ?_⟩
  intro addr hlow hhigh
  rw [ofNat_toNat_add] at hhigh
  rw [loadedState_mem, memRead_loadedMemory_of_ne hm image hlow hhigh]
  constructor
  · intro k hk haddr
    rw [(eq_add_ofNat_iff (hinside k hk)).2 haddr]
    exact memRead_placeBytes hm _ (by omega) hk
  · intro hout
    refine memRead_placeBytes_of_ne hm fun k hk haddr => ?_
    have := (eq_add_ofNat_iff (hinside k hk)).1 haddr
    omega

/-- Settles O50: reset takes PC from the vector that load wrote. -/
theorem loadThenResetStartsAtLoadAddress : Obligations.LoadThenResetStartsAtLoadAddress := by
  intro c image s hs hm hfit
  refine ⟨_, _, load_of_fits hs hfit, resetOp_of_stopped c hs, ?_⟩
  rw [resetState_pc, loadedState_mem, memRead16_loadedMemory hm]

/-! ## The beginning of a run (R152, R153) -/

theorem startRun_of_pc_eq_none {s : State} (hs : Stopped s) (hpc : s.pc = none) :
    startRun s = .next (failed s .pcUndefined) := by
  rw [startRun, whenStopped_allowed hs, hpc]
  rfl

theorem startRun_of_pc {s : State} {addr : Word} (hs : Stopped s) (hpc : s.pc = some addr) :
    startRun s = .next { s with runState := .fetching } := by
  simp only [startRun, whenStopped_allowed hs, hpc]

theorem run_of_pc (c : Config) (budget : Nat) {s : State} {addr : Word} (hs : Stopped s) (hpc : s.pc = some addr) :
    run c budget s = runLoop c.instrTable budget { s with runState := .fetching } := by
  rw [run, startRun_of_pc hs hpc, andThen]

/-- Settles O53: of the ends a step can have, HALT's is the one that leaves Halted. -/
theorem runResumesAfterHalt : Obligations.RunResumesAfterHalt := by
  intro s t addr hpc h hhalted
  obtain ⟨hrun, -⟩ | ⟨-, -, hnext⟩ | ⟨hrun, -⟩ := controlMovesForwardOnly s t addr hpc h
  · simp [hhalted] at hrun
  · exact ⟨startRun_of_pc (.inr hhalted) hnext, hnext⟩
  · simp [hhalted] at hrun

/-! ## The run state after a load (R146, R149) -/

/-- Whether a stopped state is Idle or Halted makes no difference to the beginning of a run. -/
theorem startRun_idle {s : State} (hs : Stopped s) : startRun s = startRun { s with runState := .idle } := by
  have hidle : Stopped { s with runState := .idle } := .inl rfl
  obtain hpc | ⟨addr, hpc⟩ := Option.eq_none_or_eq_some s.pc
  · rw [startRun_of_pc_eq_none hs hpc, startRun_of_pc_eq_none hidle hpc]
    rfl
  · rw [startRun_of_pc hs hpc, startRun_of_pc hidle hpc]

/-- Nor to `reset()`. -/
theorem resetOp_idle (c : Config) {s : State} (hs : Stopped s) :
    resetOp c s = resetOp c { s with runState := .idle } := by
  rw [resetOp_of_stopped c hs, resetOp_of_stopped c (.inl rfl)]
  rfl

/-- Nor to `load`, but that the run state stays. -/
theorem load_idle (c : Config) (image : List Byte) {s : State} (hs : Stopped s) :
    mapNext (fun u => { u with runState := .idle }) (load c image s) = load c image { s with runState := .idle } := by
  rw [load, load, whenStopped_allowed hs, whenStopped_allowed (.inl rfl)]
  split
  · rfl
  · rfl

/-- Settles O58: after a load the state is stopped as it was, and that is all the three operations ask of it. -/
theorem loadKeepsTheInstanceStopped : Obligations.LoadKeepsTheInstanceStopped := by
  intro c image s t h
  obtain ⟨hs, -, rfl⟩ := load_next h
  have ht : Stopped (loadedState c image s) := hs
  exact ⟨rfl, ht, resetOp_idle c ht, fun _ => by rw [run, startRun_idle ht, ← run], fun more => load_idle c more ht⟩

/-! ## A load, a reset and a run in sequence (R154) -/

/-- Settles O55, by the inversion of `loadAndRun` and, conversely, by putting its three parts in. -/
theorem loadAndRunComposes : Obligations.LoadAndRunComposes := by
  intro c image budget s
  refine ⟨fun t => ⟨loadAndRun_next, ?_⟩, fun w hload => by rw [loadAndRun, hload, andThen]⟩
  rintro ⟨l, r, hload, hreset, hrun⟩
  rw [loadAndRun, hload, andThen, hreset, andThen, hrun]

/-! ## A run is its steps (R152, R156) -/

/-- In Fetching every step answers a next state, whatever the table. -/
theorem exists_stepWith_of_fetching (table : InstrTable) {s : State} (hrun : s.runState = .fetching) :
    ∃ t, stepWith table s = .next t := by
  cases hpc : s.pc with
  | none => exact ⟨_, stepWith_of_pc_eq_none table hrun hpc⟩
  | some addr =>
    cases hlookup : lookup table (memRead s.mem addr) with
    | none => exact ⟨_, stepWith_of_lookup_eq_none hrun hpc hlookup⟩
    | some e => exact ⟨_, stepWith_of_lookup hrun hpc hlookup⟩

/-- A step leaves Fetching, Halted or Faulted (R95 to R99). -/
theorem runState_of_stepWith {table : InstrTable} {s t : State} (h : stepWith table s = .next t) :
    t.runState = .fetching ∨ t.runState = .halted ∨ t.runState = .faulted := by
  obtain ⟨-, ⟨f, rfl⟩ | ⟨addr, -, rfl | ⟨n, v, rfl⟩ | ⟨n, m, rfl⟩⟩⟩ := stepWith_cases h
  · exact .inr (.inr rfl)
  · exact .inr (.inl rfl)
  · exact .inl rfl
  · exact .inl rfl

/-- In Fetching the loop takes the step and goes on from its next state with the rest of the budget (R152). -/
theorem runLoop_succ {table : InstrTable} {s u : State} (h : stepWith table s = .next u) (n : Nat) :
    runLoop table (n + 1) s = runLoop table n u := by
  obtain ⟨hrun, -⟩ := stepWith_cases h
  rw [runLoop, if_pos hrun, h, andThen]

/-- Some steps within the budget lead from `s` to `t`, and `t` has left Fetching: the claims' account of what
`runLoop` answers (R152, R156). -/
def EndsWithin (table : InstrTable) (budget : Nat) (s t : State) : Prop :=
  ∃ k, k ≤ budget ∧ StepsTo table k s t ∧ t.runState ≠ .fetching

theorem endsWithin_mono {table : InstrTable} {budget more : Nat} {s t : State} (h : EndsWithin table budget s t) :
    EndsWithin table (budget + more) s t := by
  obtain ⟨k, hk, hend⟩ := h
  exact ⟨k, Nat.le_add_right_of_le hk, hend⟩

/-- Outside Fetching no step leads anywhere (R93). -/
theorem endsWithin_iff_of_ne_fetching {table : InstrTable} {budget : Nat} {s t : State}
    (hrun : s.runState ≠ .fetching) : EndsWithin table budget s t ↔ s = t := by
  constructor
  · rintro ⟨_, -, _ | ⟨hstep, -⟩, -⟩
    · rfl
    · exact absurd (stepWith_cases hstep).1 hrun
  · rintro rfl
    exact ⟨0, Nat.zero_le budget, .here s, hrun⟩

theorem not_endsWithin_zero {table : InstrTable} {s t : State} (hrun : s.runState = .fetching) :
    ¬ EndsWithin table 0 s t := by
  rintro ⟨_, hk, _ | _, ht⟩
  · exact ht hrun
  · simp at hk

/-- A step is a function: where it leads to `u`, what ends from `s` ends from `u` one step sooner. -/
theorem endsWithin_succ_iff {table : InstrTable} {n : Nat} {s t u : State} (h : stepWith table s = .next u) :
    EndsWithin table (n + 1) s t ↔ EndsWithin table n u t := by
  constructor
  · rintro ⟨_, hk, _ | ⟨hstep, hsteps⟩, ht⟩
    · exact absurd (stepWith_cases h).1 ht
    · cases h.symm.trans hstep
      exact ⟨_, Nat.le_of_succ_le_succ hk, hsteps, ht⟩
  · rintro ⟨k, hk, hsteps, ht⟩
    exact ⟨k + 1, Nat.succ_le_succ hk, .step h hsteps, ht⟩

/-- The loop answers exactly the state that the run ends in within the budget. -/
theorem runLoop_eq_next_iff {table : InstrTable} {budget : Nat} {s t : State} :
    runLoop table budget s = .next t ↔ EndsWithin table budget s t := by
  induction budget generalizing s with
  | zero =>
    by_cases hrun : s.runState = .fetching
    · simp [runLoop, hrun, not_endsWithin_zero]
    · rw [runLoop_of_ne_fetching table 0 hrun, endsWithin_iff_of_ne_fetching hrun, Host.Outcome.next.injEq]
  | succ n ih =>
    by_cases hrun : s.runState = .fetching
    · obtain ⟨u, hu⟩ := exists_stepWith_of_fetching table hrun
      rw [runLoop_succ hu, ih, endsWithin_succ_iff hu]
    · rw [runLoop_of_ne_fetching table _ hrun, endsWithin_iff_of_ne_fetching hrun, Host.Outcome.next.injEq]

/-- A loop begun in Fetching ends in Halted or Faulted (R152). -/
theorem runLoop_ends_halted_or_faulted {table : InstrTable} {budget : Nat} {s t : State}
    (hrun : s.runState = .fetching) (h : runLoop table budget s = .next t) :
    t.runState = .halted ∨ t.runState = .faulted := by
  obtain ⟨-, -, -, hleft⟩ := runLoop_eq_next_iff.1 h
  exact (runLoop_keeps (fun _ _ _ => runState_of_stepWith) _ _ _ (.inl hrun) h).resolve_left hleft

/-- Settles O52: with PC defined a run is the loop from Fetching, and the loop is its steps. -/
theorem runIsStepsUntilHaltedOrFaulted : Obligations.RunIsStepsUntilHaltedOrFaulted := by
  intro c budget s t hs hpc
  obtain ⟨addr, hpc⟩ := Option.ne_none_iff_exists'.1 hpc
  simp only [run_of_pc c _ hs hpc]
  exact ⟨runLoop_eq_next_iff, fun h => ⟨runLoop_ends_halted_or_faulted rfl h,
    fun _ => runLoop_eq_next_iff.2 (endsWithin_mono (runLoop_eq_next_iff.1 h))⟩⟩

/-! ## A fresh run ends (R157) -/

/-- Below the program region of the defaults every byte is 0: HALT, wherever a run comes round to. -/
def HaltsBelowProgram (m : Memory) : Prop := ∀ addr : Word, addr.toNat < 0x8000 → memRead m addr = 0x00

theorem haltsBelowProgram_loadedMemory {image : List Byte} (hfit : image.length ≤ 32768) :
    HaltsBelowProgram (loadedMemory Config.default [] image) := by
  intro addr haddr
  have hvector : addr ≠ Config.default.resetVectorAddr ∧ addr ≠ Config.default.resetVectorAddr + 1#16 := by
    constructor <;> rintro rfl <;> exact absurd haddr (by decide)
  rw [memRead_loadedMemory_of_ne rfl image hvector.1 hvector.2]
  refine memRead_placeBytes_of_ne rfl fun k hk heq => ?_
  have hbase : Config.default.programLoadAddr.toNat = 0x8000 := rfl
  have := (eq_add_ofNat_iff (by omega)).1 heq
  omega

/-- The opcode byte 0 is HALT's alone (R78). -/
theorem opcodeOf_ne_zero {i : Instr} (hi : i ≠ .halt) : opcodeOf i ≠ 0x00 := by
  cases i with
  | halt => exact absurd rfl hi
  | _ => simp [opcodeOf]

/-- HALT alone is one byte long (R69, R78). -/
theorem two_le_encode_length {i : Instr} (hi : i ≠ .halt) : 2 ≤ (encode i).length := by
  cases i with
  | halt => exact absurd rfl hi
  | _ => simp [encode, operandBytes]

/-- A step that goes on has fetched a byte other than 0, and moves PC on by two or three (R95). -/
theorem step_goes_on {s t : State} {addr : Word} (hpc : s.pc = some addr) (h : step s = .next t)
    (ht : t.runState = .fetching) :
    memRead s.mem addr ≠ 0x00 ∧ ∃ n, 2 ≤ n ∧ n ≤ 3 ∧ t.pc = some (BitVec.ofNat 16 (addr.toNat + n)) := by
  obtain ⟨-, i, rest, hi, hdecode, hnext⟩ | ⟨hrun, -⟩ | ⟨hrun, -⟩ := controlMovesForwardOnly s t addr hpc h
  · have hbytes := (encode_of_decode (by decide) hdecode).1
    have hop : opcodeOf i = memRead s.mem addr := (List.cons.inj hbytes).1.trans (byteAt_toNat s addr)
    exact ⟨hop ▸ opcodeOf_ne_zero hi, _, two_le_encode_length hi, encode_length_le i, hnext⟩
  · simp [ht] at hrun
  · simp [ht] at hrun

/-- Each step that goes on takes at least two of the bytes up to the top of memory; coming round it lands below the
program, where the next step halts. So two steps more than half of those bytes are enough. -/
theorem exists_runLoop_eq_next {budget : Nat} {s : State} {addr : Word} (hrun : s.runState = .fetching)
    (hpc : s.pc = some addr) (hmem : HaltsBelowProgram s.mem) (hpos : 0 < budget)
    (hbudget : addr.toNat < 0x8000 ∨ 0x10002 < addr.toNat + 2 * budget) :
    ∃ t, runLoop standard17 budget s = .next t := by
  induction budget generalizing s addr with
  | zero => simp at hpos
  | succ n ih =>
    obtain ⟨u, hu⟩ := exists_stepWith_of_fetching standard17 hrun
    rw [runLoop_succ hu]
    by_cases hgo : u.runState = .fetching
    · obtain ⟨hbyte, k, hk2, hk3, hnext⟩ := step_goes_on hpc hu hgo
      obtain ⟨hkept, -⟩ := noStepWritesMemoryOrIndexes standard17 s u hu
      have hlow : ¬ addr.toNat < 0x8000 := fun h => hbyte (hmem addr h)
      have haddr := addr.isLt
      refine ih hgo hnext (hkept ▸ hmem) (by omega) ?_
      rw [BitVec.toNat_ofNat]
      omega
    · exact ⟨u, runLoop_of_ne_fetching standard17 n hgo⟩

/-- Settles O56: the run begins at 0x8000 over memory that halts below it, and 32 768 steps are more than it needs. -/
theorem freshRunsEndWithin32768Steps : Obligations.FreshRunsEndWithin32768Steps := by
  intro image hfit
  obtain ⟨l, r, hload, hreset, hpc⟩ :=
    loadThenResetStartsAtLoadAddress Config.default image State.powerOn powerOn_stopped rfl hfit
  have hready : Stopped r ∧ r.mem = loadedMemory Config.default [] image := by
    obtain ⟨-, -, rfl⟩ := load_next hload
    obtain ⟨-, rfl⟩ := resetOp_next hreset
    exact ⟨.inl rfl, rfl⟩
  obtain ⟨hstop, hmem⟩ := hready
  obtain ⟨t, ht⟩ := exists_runLoop_eq_next (s := { r with runState := .fetching }) rfl hpc
    (hmem ▸ haltsBelowProgram_loadedMemory hfit) (by decide : 0 < 32768) (.inr (by decide))
  have hrun : run Config.default 32768 r = .next t := (run_of_pc _ _ hstop hpc).trans ht
  obtain ⟨hcompose, -⟩ := loadAndRunComposes Config.default image 32768 State.powerOn
  exact ⟨State.powerOn, t, rfl, (hcompose t).2 ⟨l, r, hload, hreset, hrun⟩, runLoop_ends_halted_or_faulted rfl ht⟩

end Sys2Proof.Proofs
